-- ==== Sys2Proof/Word.lean ====
section
/-! DEFINITION. The value types of 00_scope.md rule R7: `Byte`, `U16` and `Bytes`. -/

namespace Sys2Proof

/-- An unsigned 8-bit value (rule R7). It is the only addressable unit of the block (rule R25). -/
abbrev Byte := BitVec 8

/-- An unsigned 16-bit value (rule R7). No value of the block is signed (rule R26). -/
abbrev U16 := BitVec 16

/-- A finite sequence of bytes, offset 0 first (rule R7). -/
abbrev Bytes := List Byte

end Sys2Proof
end

