-- ==== Sys2Proof/Syntax.lean ====
section
/-! DEFINITION. The operations of the block (30_encoding.md rule R47) and the other rows of
spec/opcode_table.json, the transactions at its ports (10_state.md rule R21), what the outside presents to the block, and why bytes name no operation. -/

namespace Sys2Proof

/-- One constructor for every row of spec/opcode_table.json.

The first nine are the primitive operations (rows of format `OP`), `frmFeed` the pseudo-operation
(rule R52). The last five are the rows of format `WIRE` (rules R44, R51): a frame candidate as it
stands on the wire, told apart by its CMD byte. Its operands are the header fields and the `tail`,
the bytes after offset 7 (DATA, CRC and STOP when the declared length has room for them). -/
inductive Instr where
  /-- CRC.CLR (rule R64). -/
  | crcClr
  /-- CRC.UPD (rule R65). -/
  | crcUpd (b : Byte)
  /-- CRC.RD (rule R66). -/
  | crcRd
  /-- CRC.COMPUTE (rule R62), the source's `compute`. -/
  | crcCompute (s : Bytes)
  /-- CRC.VERIFY (rule R63), the source's `verify`. -/
  | crcVerify (s : Bytes) (e : U16)
  /-- ENC.REQ (rule R76), the source's `encodeRequest`. -/
  | encReq (dest src : U16) (cmd : Byte) (payload : Bytes)
  /-- DEC.FRAME (rule R79), the source's `decodeFrame`. -/
  | decFrame (r : Bytes)
  /-- FRM.PUSH (rule R95). -/
  | frmPush (b : Byte)
  /-- FRM.RST (rule R104). -/
  | frmRst
  /-- FRM.FEED (rule R96), the pseudo-operation: one chunk of the RX stream. -/
  | frmFeed (s : Bytes)
  /-- READ_REQ on the wire, CMD 0x02 (rule R44). -/
  | readReq (len dest src : U16) (tail : Bytes)
  /-- READ_RESP on the wire, CMD 0x82 (rule R44). -/
  | readResp (len dest src : U16) (tail : Bytes)
  /-- WRITE_REQ on the wire, CMD 0x03 (rule R44). -/
  | writeReq (len dest src : U16) (tail : Bytes)
  /-- PING on the wire, CMD 0x09 (rule R44). -/
  | ping (len dest src : U16) (tail : Bytes)
  /-- FRAME, any other CMD on the wire (rules R40, R51). -/
  | frame (len dest src : U16) (cmd : Byte) (tail : Bytes)
deriving DecidableEq, Repr

/-- The nine primitive operations as the selection byte names them (rule R48). -/
inductive OpCode where
  | crcClr | crcUpd | crcRd | crcCompute | crcVerify | encReq | decFrame | frmPush | frmRst
deriving DecidableEq, Repr

/-- The five rows of format `WIRE` (rule R51). -/
inductive WireKind where
  | readReq | readResp | writeReq | ping | frame
deriving DecidableEq, Repr

/-- A row of format `OP`: the operation is selected when `sel AND mask = pattern` (rule R51). -/
structure OpRow where
  op : OpCode
  mask : Byte
  pattern : Byte
deriving DecidableEq, Repr

/-- A row of format `WIRE`: a frame matches when `header AND mask = pattern`, the header being the
first eight bytes read as one number, offset 0 the most significant byte (rule R51). -/
structure WireRow where
  kind : WireKind
  mask : BitVec 64
  pattern : BitVec 64
deriving DecidableEq, Repr

/-- One transaction at a port of rule R21: a primitive operation with its operands as values. A
`Bytes` operand is any finite sequence (rules R49, R62, R63, R79). -/
inductive Transaction where
  /-- Port `CRCS`. -/
  | crcClr
  /-- Port `CRCS`. -/
  | crcUpd (b : Byte)
  /-- Port `CRCS`. -/
  | crcRd
  /-- Port `CRC`. -/
  | crcCompute (s : Bytes)
  /-- Port `CRC`. -/
  | crcVerify (s : Bytes) (e : U16)
  /-- Port `REQ`. -/
  | encReq (dest src : U16) (cmd : Byte) (payload : Bytes)
  /-- Port `DEC`. -/
  | decFrame (r : Bytes)
  /-- Port `RX`. -/
  | frmPush (b : Byte)
  /-- Port `CTL`. -/
  | frmRst
deriving DecidableEq, Repr

/-- What the outside presents at the block's ports (rule R21), oldest byte first. An operation is
issued as a transaction or as the bytes that rule R49 writes for it. Notes: assumption 15. -/
inductive PortItem where
  /-- One transaction, its operands as values of any length. -/
  | transaction (t : Transaction)
  /-- Operations in the transaction format of rule R49, one after another. This format carries at most
  65535 bytes in a `Bytes` operand. -/
  | ops (bytes : Bytes)
  /-- The chunk of one transport read, all of it for the `RX` port (rule R96). -/
  | rxRead (chunk : Bytes)
  /-- Bus traffic for the `RX` port, told apart frame by frame by the rows of format `WIRE`
  (rule R51). -/
  | rxTraffic (bytes : Bytes)
deriving DecidableEq, Repr

/-- Why the decoder reads no operation from the bytes presented. -/
inductive Reject where
  /-- The selection byte matches no row of format `OP` (rules R50, R51). -/
  | reserved (sel : Byte)
  /-- The bytes end before the operation's operands do. Notes: assumption 7. -/
  | truncated
deriving DecidableEq, Repr

end Sys2Proof
end

