-- ==== Sys2Proof/WellFormed.lean ====
section
/-! DEFINITION. Which instructions have an encoding: the operand ranges that the transaction format
(30_encoding.md rule R49) and the wire rows (rule R51) put on an instruction. The meanings do not ask
for it: "the operations themselves are defined for every finite sequence" (rule R49). -/

namespace Sys2Proof

/-- A `Bytes` operand is preceded by a 16-bit count, so it has at most 65535 bytes (rule R49). -/
abbrev countable (s : Bytes) : Bool := decide (s.length ≤ 65535)

/-- The tail of a wire candidate runs from offset 8 to the end its LEN declares (rules R40, R46).
A LEN below 8 leaves no tail. -/
abbrev tailFits (len : U16) (tail : Bytes) : Bool := decide (tail.length = len.toNat - 8)

/-- Whether a function code has a row of its own (rule R44). -/
abbrev namedCmd (cmd : Byte) : Bool := cmd == 0x02#8 || cmd == 0x82#8 || cmd == 0x03#8 || cmd == 0x09#8

/-- The check an instruction must pass to have an encoding. -/
def WellFormed : Instr → Bool
  | .crcClr => true
  | .crcUpd _ => true
  | .crcRd => true
  | .crcCompute s => countable s
  | .crcVerify s _ => countable s
  | .encReq _ _ _ payload => countable payload
  | .decFrame r => countable r
  | .frmPush _ => true
  | .frmRst => true
  | .frmFeed _ => true
  | .readReq len _ _ tail => tailFits len tail
  | .readResp len _ _ tail => tailFits len tail
  | .writeReq len _ _ tail => tailFits len tail
  | .ping len _ _ tail => tailFits len tail
  | .frame len _ _ cmd tail => tailFits len tail && !namedCmd cmd

end Sys2Proof
end

