-- ==== Sys2Proof/Decode.lean ====
section
/-! DEFINITION. The decoder and the encoder: byte order (20_memory.md rule R27), the frame constants
(00_scope.md rule R5), the operation table and transaction format (30_encoding.md rules R48, R49),
the wire rows (rules R44, R51), and the host's two questions about a word of the opcode table. -/

namespace Sys2Proof

/-! ## Constants and byte order -/

/-- The first byte of a frame (rule R5). -/
abbrev START : Byte := 0x68#8

/-- The last byte of a frame (rule R5). -/
abbrev STOP : Byte := 0x16#8

/-- START, LEN, DEST, SRC and CMD: the bytes before DATA (rule R5). -/
abbrev HDR_LEN : Nat := 8

/-- The header, the CRC and STOP: the size of a frame without DATA (rule R5). -/
abbrev MIN_LEN : Nat := 11

/-- `lo8(v) = v mod 256` (rule R7). -/
def lo8 (v : U16) : Byte := BitVec.ofNat 8 (v.toNat % 256)

/-- `hi8(v) = v >> 8` (rule R7). -/
def hi8 (v : U16) : Byte := BitVec.ofNat 8 (v.toNat / 256)

/-- `le16(b0, b1) = b0 + 256 * b1`: the byte at the lower offset is the less significant one
(rules R7, R27). -/
def le16 (b0 b1 : Byte) : U16 := BitVec.ofNat 16 (b0.toNat + 256 * b1.toNat)

/-- A length or a count as a 16-bit field. -/
def u16OfNat (n : Nat) : U16 := BitVec.ofNat 16 n

/-! ## Selection of a primitive operation -/

/-- The selection byte: `OPSEL` in the low four bits, the high four bits zero (rule R48). -/
def OpCode.sel : OpCode → Byte
  | .crcClr => 0x01#8
  | .crcUpd => 0x02#8
  | .crcRd => 0x03#8
  | .crcCompute => 0x04#8
  | .crcVerify => 0x05#8
  | .encReq => 0x06#8
  | .decFrame => 0x07#8
  | .frmPush => 0x08#8
  | .frmRst => 0x09#8

/-- The rows of format `OP` of spec/opcode_table.json (rule R51). -/
def opTable : List OpRow := [
  { op := .crcClr, mask := 0xFF#8, pattern := 0x01#8 },
  { op := .crcUpd, mask := 0xFF#8, pattern := 0x02#8 },
  { op := .crcRd, mask := 0xFF#8, pattern := 0x03#8 },
  { op := .crcCompute, mask := 0xFF#8, pattern := 0x04#8 },
  { op := .crcVerify, mask := 0xFF#8, pattern := 0x05#8 },
  { op := .encReq, mask := 0xFF#8, pattern := 0x06#8 },
  { op := .decFrame, mask := 0xFF#8, pattern := 0x07#8 },
  { op := .frmPush, mask := 0xFF#8, pattern := 0x08#8 },
  { op := .frmRst, mask := 0xFF#8, pattern := 0x09#8 }]

/-- Whether a selection byte selects a row (rule R51). -/
def OpRow.selects (row : OpRow) (sel : Byte) : Bool := sel &&& row.mask == row.pattern

/-- The operation a selection byte names; none for a reserved byte (rules R48, R50). -/
def selectOp (sel : Byte) : Option OpCode := (opTable.find? (·.selects sel)).map (·.op)

/-! ## Operands of the transaction format -/

/-- One byte operand. -/
def takeByte : Bytes → Option (Byte × Bytes)
  | b :: rest => some (b, rest)
  | [] => none

/-- A 16-bit operand, little-endian (rule R49). -/
def takeU16 : Bytes → Option (U16 × Bytes)
  | b0 :: b1 :: rest => some (le16 b0 b1, rest)
  | _ => none

/-- A `Bytes` operand: a 16-bit little-endian count, then that many bytes (rule R49). -/
def takeCounted (bs : Bytes) : Option (Bytes × Bytes) :=
  match takeU16 bs with
  | none => none
  | some (n, rest) =>
    if n.toNat ≤ rest.length then some (rest.take n.toNat, rest.drop n.toNat) else none

/-- The operand bytes of each operation, in the order of rule R49, and the bytes after them. -/
def decodeOperands : OpCode → Bytes → Option (Instr × Bytes)
  | .crcClr, bs => some (.crcClr, bs)
  | .crcUpd, bs => (takeByte bs).map fun (b, rest) => (.crcUpd b, rest)
  | .crcRd, bs => some (.crcRd, bs)
  | .crcCompute, bs => (takeCounted bs).map fun (s, rest) => (.crcCompute s, rest)
  | .crcVerify, bs =>
    (takeCounted bs).bind fun (s, rest) =>
    (takeU16 rest).map fun (e, rest) => (.crcVerify s e, rest)
  | .encReq, bs =>
    (takeU16 bs).bind fun (dest, rest) =>
    (takeU16 rest).bind fun (src, rest) =>
    (takeByte rest).bind fun (cmd, rest) =>
    (takeCounted rest).map fun (payload, rest) => (.encReq dest src cmd payload, rest)
  | .decFrame, bs => (takeCounted bs).map fun (r, rest) => (.decFrame r, rest)
  | .frmPush, bs => (takeByte bs).map fun (b, rest) => (.frmPush b, rest)
  | .frmRst, bs => some (.frmRst, bs)

/-- The first operation of a byte sequence in the transaction format, and the bytes after it. -/
def decodeOp : Bytes → Except Reject (Instr × Bytes)
  | [] => .error .truncated
  | sel :: bs =>
    match selectOp sel with
    | none => .error (.reserved sel)
    | some op =>
      match decodeOperands op bs with
      | some r => .ok r
      | none => .error .truncated

/-! ## The wire rows -/

/-- The function codes of rule R44. -/
abbrev CMD_READ_REQ : Byte := 0x02#8
/-- See rule R44. -/
abbrev CMD_READ_RESP : Byte := 0x82#8
/-- See rule R44. -/
abbrev CMD_WRITE_REQ : Byte := 0x03#8
/-- See rule R44. -/
abbrev CMD_PING : Byte := 0x09#8

/-- The rows of format `WIRE`. FRAME "stands for all other CMD values" (rule R51), so it is the
last one. -/
def wireTable : List WireRow := [
  { kind := .readReq, mask := 0xFF000000000000FF#64, pattern := 0x6800000000000002#64 },
  { kind := .readResp, mask := 0xFF000000000000FF#64, pattern := 0x6800000000000082#64 },
  { kind := .writeReq, mask := 0xFF000000000000FF#64, pattern := 0x6800000000000003#64 },
  { kind := .ping, mask := 0xFF000000000000FF#64, pattern := 0x6800000000000009#64 },
  { kind := .frame, mask := 0xFF00000000000000#64, pattern := 0x6800000000000000#64 }]

/-- Whether a header matches a row (rule R51). -/
def WireRow.selects (row : WireRow) (header : BitVec 64) : Bool :=
  header &&& row.mask == row.pattern

/-- A header as one number, the byte at offset 0 the most significant (rule R51). -/
def headerWord (b0 b1 b2 b3 b4 b5 b6 b7 : Byte) : BitVec 64 :=
  b0 ++ (b1 ++ (b2 ++ (b3 ++ (b4 ++ (b5 ++ (b6 ++ b7))))))

/-- The first row that a header matches. -/
def selectWire (header : BitVec 64) : Option WireKind :=
  (wireTable.find? (·.selects header)).map (·.kind)

/-- A wire candidate of a given kind. -/
def WireKind.instr (k : WireKind) (len dest src : U16) (cmd : Byte) (tail : Bytes) : Instr :=
  match k with
  | .readReq => .readReq len dest src tail
  | .readResp => .readResp len dest src tail
  | .writeReq => .writeReq len dest src tail
  | .ping => .ping len dest src tail
  | .frame => .frame len dest src cmd tail

/-- A whole frame candidate at the head of a byte sequence, and the bytes after it: its eight header
bytes match a row, and the bytes its LEN declares are all there (rule R46). -/
def wireFrame : Bytes → Option (Instr × Bytes)
  | b0 :: l0 :: l1 :: d0 :: d1 :: s0 :: s1 :: c :: rest =>
    match selectWire (headerWord b0 l0 l1 d0 d1 s0 s1 c) with
    | none => none
    | some k =>
      let n := (le16 l0 l1).toNat - HDR_LEN
      if n ≤ rest.length then
        some (k.instr (le16 l0 l1) (le16 d0 d1) (le16 s0 s1) c (rest.take n), rest.drop n)
      else none
  | _ => none

/-- The next event of bus traffic: a whole frame candidate where a row matches, else the next byte by
itself, as the `RX` port takes it (rule R21). Notes: assumption 5. -/
def decodeTraffic : Bytes → Except Reject (Instr × Bytes)
  | [] => .error .truncated
  | b :: bs =>
    match wireFrame (b :: bs) with
    | some r => .ok r
    | none => .ok (.frmPush b, bs)

/-! ## The decoder and the encoder -/

/-- The operation a transaction asks for (rule R21). -/
def Transaction.instr : Transaction → Instr
  | .crcClr => .crcClr
  | .crcUpd b => .crcUpd b
  | .crcRd => .crcRd
  | .crcCompute s => .crcCompute s
  | .crcVerify s e => .crcVerify s e
  | .encReq dest src cmd payload => .encReq dest src cmd payload
  | .decFrame r => .decFrame r
  | .frmPush b => .frmPush b
  | .frmRst => .frmRst

/-- What is left of an item once its first operation has been read; nothing when no byte is. -/
def leftover (mk : Bytes → PortItem) (rest : Bytes) : Option PortItem :=
  if rest.isEmpty then none else some (mk rest)

/-- The first operation of an item, and the rest of the item. Total on any bytes; a transaction is the
operation it asks for, whatever the length of its operands. -/
def decode : PortItem → Except Reject (Instr × Option PortItem)
  | .transaction t => .ok (t.instr, none)
  | .ops bs => (decodeOp bs).map fun (i, rest) => (i, leftover .ops rest)
  | .rxRead chunk => .ok (.frmFeed chunk, none)
  | .rxTraffic bs => (decodeTraffic bs).map fun (i, rest) => (i, leftover .rxTraffic rest)

/-- A 16-bit operand's two bytes (rules R27, R49). -/
def u16Bytes (v : U16) : Bytes := [lo8 v, hi8 v]

/-- A `Bytes` operand with its count before it (rule R49). -/
def countedBytes (s : Bytes) : Bytes := u16Bytes (u16OfNat s.length) ++ s

/-- The eight header bytes of a frame (rule R40). -/
def headerBytes (len dest src : U16) (cmd : Byte) : Bytes :=
  START :: (u16Bytes len ++ (u16Bytes dest ++ (u16Bytes src ++ [cmd])))

/-- A frame candidate's bytes, offset 0 first (rule R40). -/
def wireBytes (len dest src : U16) (cmd : Byte) (tail : Bytes) : Bytes :=
  headerBytes len dest src cmd ++ tail

/-- The bytes of an instruction and the port they come by: the transaction format of rule R49 for an
operation, the chunk itself for FRM.FEED, the frame layout of rule R40 for a wire row. -/
def encode : Instr → PortItem
  | .crcClr => .ops [OpCode.sel .crcClr]
  | .crcUpd b => .ops [OpCode.sel .crcUpd, b]
  | .crcRd => .ops [OpCode.sel .crcRd]
  | .crcCompute s => .ops (OpCode.sel .crcCompute :: countedBytes s)
  | .crcVerify s e => .ops (OpCode.sel .crcVerify :: (countedBytes s ++ u16Bytes e))
  | .encReq dest src cmd payload =>
    .ops (OpCode.sel .encReq :: (u16Bytes dest ++ (u16Bytes src ++ (cmd :: countedBytes payload))))
  | .decFrame r => .ops (OpCode.sel .decFrame :: countedBytes r)
  | .frmPush b => .ops [OpCode.sel .frmPush, b]
  | .frmRst => .ops [OpCode.sel .frmRst]
  | .frmFeed s => .rxRead s
  | .readReq len dest src tail => .rxTraffic (wireBytes len dest src CMD_READ_REQ tail)
  | .readResp len dest src tail => .rxTraffic (wireBytes len dest src CMD_READ_RESP tail)
  | .writeReq len dest src tail => .rxTraffic (wireBytes len dest src CMD_WRITE_REQ tail)
  | .ping len dest src tail => .rxTraffic (wireBytes len dest src CMD_PING tail)
  | .frame len dest src cmd tail => .rxTraffic (wireBytes len dest src cmd tail)

/-- The bytes of an item. A transaction carries values and no encoding. -/
def PortItem.bytes : PortItem → Bytes
  | .transaction _ => []
  | .ops bs => bs
  | .rxRead bs => bs
  | .rxTraffic bs => bs

/-! ## Words of the opcode table -/

/-- The low `n` bytes of a number, bits 7..0 first. -/
def numberBytes (n w : Nat) : Bytes := (List.range n).map fun k => BitVec.ofNat 8 (w / 256 ^ k)

/-- A wire candidate's header with its tail all zero. -/
def zeroTailed (header : Bytes) : Bytes :=
  header ++
    List.replicate ((le16 (header.getD 1 0#8) (header.getD 2 0#8)).toNat - HDR_LEN) 0#8

/-- The bytes of a wire row's word: the header, whose byte at offset 0 is the word's most significant
byte (rule R51), and a tail of zeros. Notes: assumption 11. -/
def wireWordBytes (w : Nat) : Bytes := zeroTailed (numberBytes 8 w).reverse

/-- An operation's word followed by zero operand bytes, cut after the operation it starts with. Seven
zero bytes reach to the end of ENC.REQ, the longest operation whose operand bytes are all zero. -/
def opWordBytes (nbits w : Nat) : Bytes :=
  let padded := numberBytes (nbits / 8) w ++ List.replicate 7 0#8
  match decodeOp padded with
  | .ok (_, rest) => padded.take (padded.length - rest.length)
  | .error _ => padded

/-- A word of the opcode table as the item that carries it. The rows of 64 bits are the wire rows. -/
def tableItem (nbits w : Nat) : PortItem :=
  if nbits = 64 then .rxTraffic (wireWordBytes w) else .ops (opWordBytes nbits w)

/-- The instruction the decoder reads from a word of the opcode table. -/
def decodeTableWord (nbits w : Nat) : Option Instr :=
  match tableItem nbits w with
  | .transaction _ => none
  | .ops bs =>
    match decodeOp bs with
    | .ok (i, _) => some i
    | .error _ => none
  | .rxRead _ => none
  | .rxTraffic bs => (wireFrame bs).map Prod.fst

end Sys2Proof
end

