-- ==== Sys2Proof/Config.lean ====
section
/-! DEFINITION. What an implementation of the block fixes before a run: the open parameters of
00_scope.md rule R5. -/

namespace Sys2Proof

/-- The configuration of the block (rules R5, R20). `BUF_CAP` is not a field of its own: it equals
`MAX_LEN` (`Config.bufCap`, 92_eei_decisions.md D19).

The two bounds are part of the record, so a value outside `11 .. 65535` is no configuration at all,
which is what 93_implementation_defined.md I13 says of it. -/
structure Config where
  /-- `MAX_LEN`, the largest frame length the framer accepts and ENC.REQ produces (OPEN, D4). -/
  maxLen : Nat
  /-- `DIAG`, whether FRM.PUSH also returns the kinds of its resyncs (OPEN, D16). -/
  diag : Bool
  /-- `MIN_LEN <= MAX_LEN` (rule R5). -/
  minLen_le : 11 ≤ maxLen := by decide
  /-- `MAX_LEN <= 65535` (rule R5). -/
  le_u16 : maxLen ≤ 65535 := by decide
deriving DecidableEq, Repr

/-- `BUF_CAP`, the capacity of `FRM.BUF` in bytes, equal to `MAX_LEN` (rule R5, D19). -/
def Config.bufCap (c : Config) : Nat := c.maxLen

/-- The defaults that 92_eei_decisions.md suggests: `MAX_LEN = 512` (D4), `DIAG = false` (D16).
Only the reset state uses them; no rule does. Notes: assumption 1. -/
def Config.suggested : Config := { maxLen := 512, diag := false }

end Sys2Proof
end

