-- ==== Sys2Proof/Machine/State.lean ====
section
/-! DEFINITION. The state of the block (10_state.md rule R10), the values its operations return, the
host's side of the ports, and the reasons a step can stop. -/

namespace Sys2Proof.Machine

/-! ## Values -/

/-- `FRM.PHASE` takes exactly these four values, in this order (rule R12). -/
inductive Phase where
  | seekStart | readLength | accumulateBody | emitOrResync
deriving DecidableEq, Repr

/-- The two error outcomes the block has (rules R115, R116, R117). Neither carries information. -/
inductive FrameError where
  | malformedHeader | crcMismatch
deriving DecidableEq, Repr

/-- The decoded form of a frame (rule R42). -/
structure Frame where
  start : Byte
  length : U16
  dest : U16
  src : U16
  cmd : Byte
  data : Bytes
  crc : U16
  stop : Byte
deriving DecidableEq, Repr

/-- What one internal step of the framer yields (rule R90). -/
inductive StepResult where
  | wait
  | progress
  | resync (kind : FrameError)
  | emit (f : Frame)
deriving DecidableEq, Repr

/-- A value an operation returns (rules R18, R47). CRC.CLR, CRC.UPD and FRM.RST return none. -/
inductive Result where
  /-- CRC.COMPUTE, CRC.RD. -/
  | u16 (v : U16)
  /-- CRC.VERIFY. -/
  | bool (v : Bool)
  /-- ENC.REQ. -/
  | bytes (bs : Bytes)
  /-- DEC.FRAME of a valid frame. -/
  | frame (f : Frame)
  /-- DEC.FRAME of any other range. -/
  | error (e : FrameError)
  /-- FRM.PUSH, FRM.FEED and the wire rows: the frames emitted and the kinds of the resyncs, both in
  order. The second list is empty when `DIAG` is false (rule R7, `diag k`). -/
  | frames (fs : List Frame) (diags : List FrameError)
deriving DecidableEq, Repr

/-- What the host does at the ports (rule R21). -/
inductive HostEvent where
  /-- A transaction, or bytes, presented at a port. -/
  | offer (item : PortItem)
  /-- The reset event of the `CTL` port (rule R135). -/
  | reset
deriving DecidableEq, Repr

/-! ## State -/

/-- The three registers of the Stream Framer (rules R12, R13, R14). -/
structure Framer where
  /-- `FRM.PHASE`. -/
  phase : Phase
  /-- `FRM.BUF`, oldest byte first. -/
  buf : Bytes
  /-- `FRM.FLEN`. -/
  flen : U16
deriving DecidableEq, Repr

/-- The block's four pieces of state (rule R10), its configuration, and the two sides of its ports:
what the host has issued and not yet seen executed, and what the operations have returned. The last
three fields are the model's own. Notes: assumptions 1, 2, 3. -/
structure State where
  /-- `CRCREG` (rule R11). -/
  crcReg : U16
  /-- `FRM.PHASE`, `FRM.BUF`, `FRM.FLEN`. -/
  frm : Framer
  /-- The configuration, fixed for a run (rule R20). -/
  config : Config
  /-- What the host has issued, oldest first (rules R6, R35). -/
  input : List HostEvent
  /-- The results returned so far, oldest first: the observation of the run (rule R6). -/
  results : List Result
deriving DecidableEq, Repr

/-- The framer after reset (rule R23). -/
def Framer.reset : Framer := { phase := .seekStart, buf := [], flen := 0x0000#16 }

/-- The block after reset (rule R23) under a given configuration, nothing issued and nothing
returned. -/
def State.resetWith (c : Config) : State :=
  { crcReg := 0x0000#16, frm := Framer.reset, config := c, input := [], results := [] }

/-- The block after reset under the configuration the spec suggests. Notes: assumption 1. -/
def State.reset : State := State.resetWith Config.suggested

/-! ## Stops -/

/-- The faults of the model. The block itself has no fault state (rule R124): every one of these marks
an access outside the domain that 20_memory.md rule R31 gives a buffer primitive, and none is raised
in a state that meets the invariant of rule R15. -/
inductive Fault where
  /-- Raised by `BufAppend` on a full buffer (rule R31). Safe. Notes: assumption 8. -/
  | bufferFull
  /-- Raised by `BufDrop(k)` with fewer than `k` bytes buffered (rule R31). Safe. Notes:
  assumption 8. -/
  | bufferUnderrun
  /-- Raised by a read of buffer offsets that hold no byte (rule R31). Safe. Notes: assumption 8. -/
  | bufferRange
  /-- Raised by the loop of FRM.PUSH if it had not ended within the step count of rule R97. Safe.
  Notes: assumption 9. -/
  | stepCountSpent
deriving DecidableEq, Repr

/-- Why a step has no meaning (rule R118). -/
inductive Refusal where
  /-- Raised by `exec` for an instruction without a meaning: none is left. Safe. -/
  | notModelled (mnemonic : String)
  /-- Raised by ENC.REQ when the frame would be longer than `MAX_LEN` (rules R76, R118). Safe. -/
  | payloadTooLong
  /-- Raised by `step` for a selection byte that names no operation (rules R50, R118). Safe. -/
  | reservedOperation (sel : Byte)
  /-- Raised by `step` for bytes that end before their operation does. Safe. Notes: assumption 7. -/
  | incompleteOperation
deriving DecidableEq, Repr

/-- What the host's input has for the next step. -/
inductive Fetched where
  /-- Nothing has been issued. -/
  | idle
  /-- The oldest item holds no operation; `rest` is what is left to do. -/
  | skip (rest : List HostEvent)
  /-- A reset event. -/
  | reset (rest : List HostEvent)
  /-- An instruction. -/
  | run (i : Instr) (rest : List HostEvent)
  /-- Bytes that name no operation. -/
  | refuse (why : Refusal)
deriving DecidableEq, Repr

end Sys2Proof.Machine
end

