-- ==== Sys2Proof/Machine/Operands.lean ====
section
/-! DEFINITION. Access to a byte range by offset (20_memory.md rules R25, R27, R33): the fields of a
frame candidate and the slices the codec takes. There is no operand form but a value that travels
with its operation (10_state.md rule R16). -/

namespace Sys2Proof.Machine

/-- `r[i]`. Every caller has checked that `i` is an offset of `r`. -/
def byteAt (r : Bytes) (i : Nat) : Byte := r.getD i 0#8

/-- The 16-bit field whose first byte is at offset `k` (rule R27). -/
def fieldAt (r : Bytes) (k : Nat) : U16 := le16 (byteAt r k) (byteAt r (k + 1))

/-- `r[i..j)`, defined for `i <= j <= len(r)` (rule R7). -/
def slice (r : Bytes) (i j : Nat) : Bytes := (r.take j).drop i

/-- The LEN field, offsets 1 and 2 (rule R40). -/
def lenField (r : Bytes) : U16 := fieldAt r 1

/-- The DEST field, offsets 3 and 4 (rule R40). -/
def destField (r : Bytes) : U16 := fieldAt r 3

/-- The SRC field, offsets 5 and 6 (rule R40). -/
def srcField (r : Bytes) : U16 := fieldAt r 5

/-- The CMD byte, offset 7 (rule R40). -/
def cmdField (r : Bytes) : Byte := byteAt r 7

/-- The DATA bytes of a range of `n` bytes, offsets 8 to `n - 4` (rule R40). -/
def dataField (r : Bytes) : Bytes := slice r HDR_LEN (r.length - 3)

/-- The stored CRC of a range of `n` bytes, offsets `n - 3` and `n - 2` (rule R40, as corrected by
90_conflicts.md C1). -/
def crcField (r : Bytes) : U16 := fieldAt r (r.length - 3)

/-- The bytes the CRC covers, offsets 0 to `n - 4` (rule R41). -/
def coveredRange (r : Bytes) : Bytes := slice r 0 (r.length - 3)

/-- The payload of a READ_REQ: 0x01, then the parameter index little-endian (rule R44). -/
def readReqPayload (index : U16) : Bytes := [0x01#8, lo8 index, hi8 index]

end Sys2Proof.Machine
end

