-- ==== Sys2Proof/Machine/Ops.lean ====
section
/-! DEFINITION. The shared operations: the CRC functions (40_crc.md rules R60, R61), the buffer
primitives (20_memory.md rule R31), the reaction to an error (60_exceptions.md rule R122), writing a
register and returning a result, the reset event (70_reset_and_hazards.md rule R135), and taking the
next operation from what the host has issued. -/

namespace Sys2Proof.Machine

/-! ## The CRC functions -/

/-- The generator word; the x^16 term is implicit (rule R5). -/
abbrev POLY : U16 := 0x1021#16

/-- The value a computation starts from (rule R5). -/
abbrev CRC_INIT : U16 := 0x0000#16

/-- One of the eight iterations of `crc_byte`: shift left by one, and XOR `POLY` in when the bit
shifted out is 1 (rule R60). -/
def crcShift (t : U16) : U16 := if t.getLsbD 15 then (t <<< 1) ^^^ POLY else t <<< 1

/-- `n` iterations. -/
def crcShifts : Nat → U16 → U16
  | 0, t => t
  | n + 1, t => crcShifts n (crcShift t)

/-- `crc_byte(c, b)`: the byte enters at the top of the register, then eight shifts (rule R60).
Notes: assumption 10. -/
def crcByte (c : U16) (b : Byte) : U16 := crcShifts 8 (c ^^^ (b.setWidth 16 <<< 8))

/-- The fold of `crc_byte` over a byte sequence from a given value (rules R61, R69 item 5). -/
def crcFold (c : U16) (bs : Bytes) : U16 := bs.foldl crcByte c

/-- `crc16(s)`: the fold from `CRC_INIT`, with no final XOR (rule R61). Notes: assumption 10. -/
def crc16 (bs : Bytes) : U16 := crcFold CRC_INIT bs

/-! ## Registers and results -/

/-- `CRCREG <- v` (rule R7). -/
def State.setCrcReg (s : State) (v : U16) : State := { s with crcReg := v }

/-- The framer's three registers written together. -/
def State.setFrm (s : State) (f : Framer) : State := { s with frm := f }

/-- The operation returns `r` (rule R6: the results of a run in order are its observation). -/
def State.returning (s : State) (r : Result) : State := { s with results := s.results ++ [r] }

/-! ## The buffer primitives -/

/-- `BufAppend(b)`, defined while the buffer has room (rule R31). -/
def bufAppend (cap : Nat) (b : Byte) (f : Framer) : Except Fault Framer :=
  if f.buf.length < cap then .ok { f with buf := f.buf ++ [b] } else .error .bufferFull

/-- `BufDrop(k)`, defined for `k <= len(FRM.BUF)` (rule R31). -/
def bufDrop (k : Nat) (f : Framer) : Except Fault Framer :=
  if k ≤ f.buf.length then .ok { f with buf := f.buf.drop k } else .error .bufferUnderrun

/-- `BufClear()` (rule R31). -/
def bufClear (f : Framer) : Framer := { f with buf := [] }

/-- The read `FRM.BUF[0..n)`, defined for `n <= len(FRM.BUF)` (rule R31). -/
def bufHead (n : Nat) (f : Framer) : Except Fault Bytes :=
  if n ≤ f.buf.length then .ok (slice f.buf 0 n) else .error .bufferRange

/-! ## The reaction to an error -/

/-- What the framer does when it meets an error, the whole of it (rule R122): drop the START byte of
the failed candidate and seek the next one; the kind is the step's result. Nothing is saved and
nothing is returned from (rule R123): the push goes on in `SEEK_START`. -/
def resync (kind : FrameError) (f : Framer) : Except Fault (Framer × StepResult) :=
  match bufDrop 1 f with
  | .ok g => .ok ({ g with phase := .seekStart }, .resync kind)
  | .error e => .error e

/-! ## The reset event -/

/-- The reset event (rule R135): the four pieces of state take their reset values. The configuration
is not touched (rule R137); what the host has issued and observed is the host's. Notes:
assumption 4. -/
def State.applyReset (s : State) : State := (s.setCrcReg CRC_INIT).setFrm Framer.reset

/-! ## Taking the next operation -/

/-- How the step refuses bytes that name no operation (rule R118). -/
def refusalOf : Reject → Refusal
  | .reserved sel => .reservedOperation sel
  | .truncated => .incompleteOperation

/-- What is left to do once an item has been read up to `left`. -/
def pending (left : Option PortItem) (rest : List HostEvent) : List HostEvent :=
  match left with
  | some item => .offer item :: rest
  | none => rest

/-- Whether an item holds no operation: no bytes at a port that takes operations one by one. An empty
chunk is an operation all the same, `FRM.FEED []` (rule R52). -/
def itemSpent : PortItem → Bool
  | .transaction _ => false
  | .ops bs => bs.isEmpty
  | .rxRead _ => false
  | .rxTraffic bs => bs.isEmpty

/-- What the oldest event the host has issued asks for (rules R6, R35). -/
def fetch (s : State) : Fetched :=
  match s.input with
  | [] => .idle
  | .reset :: rest => .reset rest
  | .offer item :: rest =>
    if itemSpent item then .skip rest
    else
      match decode item with
      | .ok (i, left) => .run i (pending left rest)
      | .error why => .refuse (refusalOf why)

/-- The input with its oldest part taken. -/
def State.setInput (s : State) (rest : List HostEvent) : State := { s with input := rest }

end Sys2Proof.Machine
end

