-- ==== Sys2Proof/Machine/Flags.lean ====
section
/-! DEFINITION. The block has no status flags and no condition codes: every outcome is a returned
value (10_state.md rule R18). What other hardware keeps in flags is here the four checks that decide
the outcome of decoding a range (41_codec.md rule R77) and the numeric codes the spec gives its names
(rules R12, R119). -/

namespace Sys2Proof.Machine

/-! ## The checks of `decode`, in their order of priority (rule R121) -/

/-- The range is not shorter than the smallest frame (D9). -/
def sizeOk (r : Bytes) : Bool := decide (MIN_LEN ≤ r.length)

/-- START stands at offset 0 and STOP at the last offset. -/
def delimitersOk (r : Bytes) : Bool := byteAt r 0 == START && byteAt r (r.length - 1) == STOP

/-- The LEN field is the size of the range (D9). -/
def lengthOk (r : Bytes) : Bool := (lenField r).toNat == r.length

/-- The CRC of the covered range is the stored one. -/
def crcOk (r : Bytes) : Bool := crc16 (coveredRange r) == crcField r

/-! ## The bounds of `READ_LENGTH` -/

/-- A declared length the framer accepts; both bounds are inclusive (rule R92, D4, D8). -/
def lengthInRange (maxLen : Nat) (len : U16) : Bool :=
  decide (MIN_LEN ≤ len.toNat) && decide (len.toNat ≤ maxLen)

/-! ## Numeric codes -/

/-- The number of a phase (rule R12, D3). It is also the rank that rule R97 orders phases by. -/
def Phase.code : Phase → Nat
  | .seekStart => 0
  | .readLength => 1
  | .accumulateBody => 2
  | .emitOrResync => 3

/-- The number of an error; 0 means no error (rule R119, D3). -/
def FrameError.code : FrameError → Nat
  | .malformedHeader => 1
  | .crcMismatch => 2

end Sys2Proof.Machine
end

