-- ==== Sys2Proof/Machine/Codec.lean ====
section
/-! DEFINITION. The Frame Codec (41_codec.md): `encode`, `decode`, ENC.REQ and DEC.FRAME. -/

namespace Sys2Proof.Machine

/-- The bytes of a frame that its CRC covers, offsets 0 to `L - 4` (rule R75, `body`). -/
def encodeBody (dest src : U16) (cmd : Byte) (payload : Bytes) : Bytes :=
  headerBytes (u16OfNat (MIN_LEN + payload.length)) dest src cmd ++ payload

/-- `encode(dest, src, cmd, payload)` (rule R75), used only where the spec defines it, for frames of
at most 65535 bytes. -/
def encodeFrame (dest src : U16) (cmd : Byte) (payload : Bytes) : Bytes :=
  encodeBody dest src cmd payload ++
    (u16Bytes (crc16 (encodeBody dest src cmd payload)) ++ [STOP])

/-- The record made of a valid range's fields (rule R77, step 4). -/
def frameOf (r : Bytes) : Frame where
  start := START
  length := lenField r
  dest := destField r
  src := srcField r
  cmd := cmdField r
  data := dataField r
  crc := crcField r
  stop := STOP

/-- `decode(r)`, total on every byte sequence (rule R77): the size, the delimiters and the length
field are looked at before the CRC, so `MalformedHeader` has priority (rule R121). -/
def decodeFrame (r : Bytes) : Except FrameError Frame :=
  if !sizeOk r then .error .malformedHeader
  else if !delimitersOk r then .error .malformedHeader
  else if !lengthOk r then .error .malformedHeader
  else if !crcOk r then .error .crcMismatch
  else .ok (frameOf r)

/-- ENC.REQ (rule R76): refused when the frame would be longer than `MAX_LEN`, else returns it. -/
def execEncReq (dest src : U16) (cmd : Byte) (payload : Bytes) (s : State) :
    Host.Outcome State Fault Refusal :=
  if s.config.maxLen < MIN_LEN + payload.length then .refused .payloadTooLong
  else .next (s.returning (.bytes (encodeFrame dest src cmd payload)))

/-- What DEC.FRAME returns (rule R79): an error is a returned value and nothing else happens. -/
def decodeResult (r : Bytes) : Result :=
  match decodeFrame r with
  | .ok f => .frame f
  | .error e => .error e

/-- DEC.FRAME (rule R79). -/
def execDecFrame (r : Bytes) (s : State) : Host.Outcome State Fault Refusal :=
  .next (s.returning (decodeResult r))

end Sys2Proof.Machine
end

