-- ==== Sys2Proof/Machine/CrcEngine.lean ====
section
/-! DEFINITION. The CRC Engine (40_crc.md): the two defining functions and the five operations. -/

namespace Sys2Proof.Machine

/-! ## CRC.COMPUTE and CRC.VERIFY -/

/-- CRC.COMPUTE (rule R62): returns `crc16(s)`, touches no state. -/
def execCrcCompute (bs : Bytes) (s : State) : Host.Outcome State Fault Refusal :=
  .next (s.returning (.u16 (crc16 bs)))

/-- CRC.VERIFY (rule R63): returns whether `crc16(s) = e`, touches no state. -/
def execCrcVerify (bs : Bytes) (e : U16) (s : State) : Host.Outcome State Fault Refusal :=
  .next (s.returning (.bool (crc16 bs == e)))

/-! ## The serial port -/

/-- CRC.CLR (rule R64): `CRCREG <- 0x0000`. -/
def execCrcClr (s : State) : Host.Outcome State Fault Refusal :=
  .next (s.setCrcReg CRC_INIT)

/-- CRC.UPD (rule R65): `CRCREG <- crc_byte(CRCREG, b)`. -/
def execCrcUpd (b : Byte) (s : State) : Host.Outcome State Fault Refusal :=
  .next (s.setCrcReg (crcByte s.crcReg b))

/-- CRC.RD (rule R66): returns `CRCREG` as it stands; reading does not clear it. -/
def execCrcRd (s : State) : Host.Outcome State Fault Refusal :=
  .next (s.returning (.u16 s.crcReg))

end Sys2Proof.Machine
end

