-- ==== Sys2Proof/Machine/Framer.lean ====
section
/-! DEFINITION. The Stream Framer (42_framer.md): the four phase steps, the loop of FRM.PUSH, and the
operations FRM.PUSH, FRM.FEED and FRM.RST. -/

namespace Sys2Proof.Machine

/-! ## The internal steps -/

/-- The least index of a START byte in a byte sequence. -/
def startIndex : Bytes → Option Nat
  | [] => none
  | b :: rest => if b = START then some 0 else (startIndex rest).map (· + 1)

/-- The step of `SEEK_START` (rule R91): discard the bytes before the first START, or all of them when
there is none (D7). -/
def seekStartStep (f : Framer) : Except Fault (Framer × StepResult) :=
  match startIndex f.buf with
  | some i =>
    match bufDrop i f with
    | .ok g => .ok ({ g with phase := .readLength }, .progress)
    | .error e => .error e
  | none => .ok (bufClear f, .wait)

/-- The step of `READ_LENGTH` (rule R92): with offsets 0, 1 and 2 buffered (D6), take the length, or
resynchronise when it is out of range; the kind of that resync is `MalformedHeader` (D16). -/
def readLengthStep (maxLen : Nat) (f : Framer) : Except Fault (Framer × StepResult) :=
  if f.buf.length < 3 then .ok (f, .wait)
  else if lengthInRange maxLen (lenField f.buf) then
    .ok ({ f with flen := lenField f.buf, phase := .accumulateBody }, .progress)
  else resync .malformedHeader f

/-- The step of `ACCUMULATE_BODY` (rule R93): wait until the declared length is buffered. -/
def accumulateBodyStep (f : Framer) : Except Fault (Framer × StepResult) :=
  if f.buf.length < f.flen.toNat then .ok (f, .wait)
  else .ok ({ f with phase := .emitOrResync }, .progress)

/-- The step of `EMIT_OR_RESYNC` (rule R94): the codec decides over the candidate range; a frame is
emitted and the buffer advanced past it, a failure drops the START byte alone. -/
def emitOrResyncStep (f : Framer) : Except Fault (Framer × StepResult) :=
  match bufHead f.flen.toNat f with
  | .error e => .error e
  | .ok r =>
    match decodeFrame r with
    | .ok frame =>
      match bufDrop f.flen.toNat f with
      | .ok g => .ok ({ g with phase := .seekStart }, .emit frame)
      | .error e => .error e
    | .error kind => resync kind f

/-- One internal step: the rule of the phase the framer is in (rule R90). -/
def internalStep (maxLen : Nat) (f : Framer) : Except Fault (Framer × StepResult) :=
  match f.phase with
  | .seekStart => seekStartStep f
  | .readLength => readLengthStep maxLen f
  | .accumulateBody => accumulateBodyStep f
  | .emitOrResync => emitOrResyncStep f

/-! ## Pushing bytes -/

/-- Step results put before those of what comes after. -/
def before (trace : List StepResult) (r : Except Fault (Framer × List StepResult)) :
    Except Fault (Framer × List StepResult) :=
  match r with
  | .error e => .error e
  | .ok (f, more) => .ok (f, trace ++ more)

/-- Internal steps until one waits, under a step count; answers the framer then reached and the
results of the steps, in order, the last `wait` among them (rule R95). -/
def runSteps (maxLen : Nat) : Nat → Framer → Except Fault (Framer × List StepResult)
  | 0, _ => .error .stepCountSpent
  | fuel + 1, f =>
    match internalStep maxLen f with
    | .error e => .error e
    | .ok (g, .wait) => .ok (g, [.wait])
    | .ok (g, r) => before [r] (runSteps maxLen fuel g)

/-- The number of internal steps that rule R97 bounds a push by, `n` bytes being buffered after the
append. -/
def stepBound (n : Nat) : Nat := 4 * (n + 1)

/-- The framer's part of FRM.PUSH (rule R95): append the byte, then step until a step waits. -/
def pushByte (c : Config) (b : Byte) (f : Framer) : Except Fault (Framer × List StepResult) :=
  match bufAppend c.bufCap b f with
  | .error e => .error e
  | .ok g => runSteps c.maxLen (stepBound g.buf.length) g

/-- The pushes of a chunk's bytes in order, their step results one after another (rule R96). -/
def feedBytes (c : Config) : Bytes → Framer → Except Fault (Framer × List StepResult)
  | [], f => .ok (f, [])
  | b :: rest, f =>
    match pushByte c b f with
    | .error e => .error e
    | .ok (g, trace) => before trace (feedBytes c rest g)

/-- The frames emitted among step results, in order (rule R7, `emit f`). -/
def framesOf : List StepResult → List Frame
  | [] => []
  | .emit f :: rest => f :: framesOf rest
  | .wait :: rest => framesOf rest
  | .progress :: rest => framesOf rest
  | .resync _ :: rest => framesOf rest

/-- The kinds of the resyncs among step results, in order (rule R131). -/
def diagsOf : List StepResult → List FrameError
  | [] => []
  | .resync k :: rest => k :: diagsOf rest
  | .wait :: rest => diagsOf rest
  | .progress :: rest => diagsOf rest
  | .emit _ :: rest => diagsOf rest

/-- What a framer operation returns: the frames, and the diagnostic list when `DIAG` (rule R95). -/
def framerResult (c : Config) (trace : List StepResult) : Result :=
  .frames (framesOf trace) (if c.diag then diagsOf trace else [])

/-- A framer operation's outcome: the registers it leaves and the result it returns. -/
def framerOutcome (s : State) (r : Except Fault (Framer × List StepResult)) :
    Host.Outcome State Fault Refusal :=
  match r with
  | .ok (f, trace) => .next ((s.setFrm f).returning (framerResult s.config trace))
  | .error e => .fault e

/-! ## The operations -/

/-- FRM.PUSH (rule R95). -/
def execFrmPush (b : Byte) (s : State) : Host.Outcome State Fault Refusal :=
  framerOutcome s (pushByte s.config b s.frm)

/-- The meaning of a chunk of the RX stream (rule R96), shared by FRM.FEED and the wire rows. -/
def feed (bs : Bytes) (s : State) : Host.Outcome State Fault Refusal :=
  framerOutcome s (feedBytes s.config bs s.frm)

/-- FRM.FEED (rule R96). -/
def execFrmFeed (bs : Bytes) (s : State) : Host.Outcome State Fault Refusal := feed bs s

/-- FRM.RST (rule R104): `BufClear(); FRM.PHASE <- SEEK_START; FRM.FLEN <- 0x0000`. -/
def execFrmRst (s : State) : Host.Outcome State Fault Refusal :=
  .next (s.setFrm { bufClear s.frm with phase := .seekStart, flen := 0x0000#16 })

end Sys2Proof.Machine
end

