-- ==== Sys2Proof/Machine/Wire.lean ====
section
/-! DEFINITION. The rows of format `WIRE` (30_encoding.md rules R44, R51): a frame candidate that
stands on the wire reaches the block at the `RX` port, as the chunk of its bytes (42_framer.md
rule R96). The block makes no decision on CMD (rule R45). Notes: assumptions 5, 6. -/

namespace Sys2Proof.Machine

/-- READ_REQ arrives (rule R44, CMD 0x02). -/
def execReadReq (len dest src : U16) (tail : Bytes) (s : State) :
    Host.Outcome State Fault Refusal :=
  feed (wireBytes len dest src CMD_READ_REQ tail) s

/-- READ_RESP arrives (rule R44, CMD 0x82). -/
def execReadResp (len dest src : U16) (tail : Bytes) (s : State) :
    Host.Outcome State Fault Refusal :=
  feed (wireBytes len dest src CMD_READ_RESP tail) s

/-- WRITE_REQ arrives (rule R44, CMD 0x03): the block carries it like any other frame (rule R50). -/
def execWriteReq (len dest src : U16) (tail : Bytes) (s : State) :
    Host.Outcome State Fault Refusal :=
  feed (wireBytes len dest src CMD_WRITE_REQ tail) s

/-- PING arrives (rule R44, CMD 0x09). -/
def execPing (len dest src : U16) (tail : Bytes) (s : State) :
    Host.Outcome State Fault Refusal :=
  feed (wireBytes len dest src CMD_PING tail) s

/-- A frame candidate with any other CMD arrives (rules R40, R45). -/
def execFrame (len dest src : U16) (cmd : Byte) (tail : Bytes) (s : State) :
    Host.Outcome State Fault Refusal :=
  feed (wireBytes len dest src cmd tail) s

end Sys2Proof.Machine
end

