-- ==== Sys2Proof/Machine/Dispatch.lean ====
section
/-! DEFINITION. One arm per instruction, each a direct call of its meaning. -/

namespace Sys2Proof.Machine

/-- The outcome of an instruction in a state (30_encoding.md rule R47). -/
def exec (i : Instr) (s : State) : Host.Outcome State Fault Refusal :=
  match i with
  | .crcClr => Sys2Proof.Machine.execCrcClr s
  | .crcUpd b => Sys2Proof.Machine.execCrcUpd b s
  | .crcRd => Sys2Proof.Machine.execCrcRd s
  | .crcCompute bs => Sys2Proof.Machine.execCrcCompute bs s
  | .crcVerify bs e => Sys2Proof.Machine.execCrcVerify bs e s
  | .encReq dest src cmd payload => Sys2Proof.Machine.execEncReq dest src cmd payload s
  | .decFrame r => Sys2Proof.Machine.execDecFrame r s
  | .frmPush b => Sys2Proof.Machine.execFrmPush b s
  | .frmRst => Sys2Proof.Machine.execFrmRst s
  | .frmFeed bs => Sys2Proof.Machine.execFrmFeed bs s
  -- the rows of format WIRE
  | .readReq len dest src tail => Sys2Proof.Machine.execReadReq len dest src tail s
  | .readResp len dest src tail => Sys2Proof.Machine.execReadResp len dest src tail s
  | .writeReq len dest src tail => Sys2Proof.Machine.execWriteReq len dest src tail s
  | .ping len dest src tail => Sys2Proof.Machine.execPing len dest src tail s
  | .frame len dest src cmd tail => Sys2Proof.Machine.execFrame len dest src cmd tail s

end Sys2Proof.Machine
end

