-- ==== Sys2Proof/Machine/Step.lean ====
section
/-! DEFINITION. One step of the block: the oldest event the host has issued takes effect, whole and at
once (00_scope.md rule R6). -/

namespace Sys2Proof.Machine

/-- One step. With nothing issued the block holds its state (60_exceptions.md rule R132). -/
def step (s : State) : Host.Outcome State Fault Refusal :=
  match fetch s with
  | .idle => .next s
  | .skip rest => .next (s.setInput rest)
  | .reset rest => .next (s.setInput rest).applyReset
  | .run i rest => exec i (s.setInput rest)
  | .refuse why => .refused why

/-- The state in which the next step runs the instruction of a word of the opcode table: the host has
issued it before everything else it has issued. Notes: assumptions 2, 11. -/
def State.withFetchWord (s : State) (nbits w : Nat) : State :=
  s.setInput (.offer (tableItem nbits w) :: s.input)

end Sys2Proof.Machine
end

