-- ==== Sys2Proof/Safety.lean ====
section
/-! DEFINITION. What counts as a good state and a safe run, and the reference functions that the spec
gives beside its definitions: the terms the statements use. -/

namespace Sys2Proof.Machine

/-! ## Frames -/

/-- A byte sequence is a valid frame (41_codec.md rule R78). -/
abbrev ValidFrame (r : Bytes) : Prop :=
  11 ≤ r.length ∧ r.getD 0 0#8 = START ∧ r.getD (r.length - 1) 0#8 = STOP ∧
  (r.getD 1 0#8).toNat + 256 * (r.getD 2 0#8).toNat = r.length ∧
  (r.getD (r.length - 3) 0#8).toNat + 256 * (r.getD (r.length - 2) 0#8).toNat =
    (crc16 (r.take (r.length - 3))).toNat

/-- A `Frame` record meets both invariants and has the two constants in place (rule R42). -/
abbrev Frame.Valid (f : Frame) : Prop :=
  f.start = START ∧ f.stop = STOP ∧ f.length.toNat = 11 + f.data.length ∧
  f.crc = crc16 (encodeBody f.dest f.src f.cmd f.data)

/-- The wire form of a `Frame` (rule R81). -/
def Frame.wire (f : Frame) : Bytes := encodeFrame f.dest f.src f.cmd f.data

/-- The record that a frame made of these fields decodes to (rule R80). -/
def builtFrame (dest src : U16) (cmd : Byte) (payload : Bytes) : Frame where
  start := START
  length := u16OfNat (11 + payload.length)
  dest := dest
  src := src
  cmd := cmd
  data := payload
  crc := crc16 (encodeBody dest src cmd payload)
  stop := STOP

/-- The bytes of a frame after its header: DATA, CRC and STOP (rule R40). -/
def builtTail (dest src : U16) (cmd : Byte) (payload : Bytes) : Bytes :=
  payload ++ (u16Bytes (crc16 (encodeBody dest src cmd payload)) ++ [STOP])

/-! ## Good states -/

/-- The framer waits for a byte: the states of 10_state.md rule R15, items 1 to 4, which
42_framer.md rule R98 calls quiescent. -/
def Quiescent (maxLen : Nat) (f : Framer) : Prop :=
  match f.phase with
  | .seekStart => f.buf = []
  | .readLength => 1 ≤ f.buf.length ∧ f.buf.length ≤ 2 ∧ f.buf.getD 0 0#8 = START
  | .accumulateBody =>
    3 ≤ f.buf.length ∧ f.buf.length < f.flen.toNat ∧ f.buf.getD 0 0#8 = START ∧
    f.flen = le16 (f.buf.getD 1 0#8) (f.buf.getD 2 0#8) ∧ 11 ≤ f.flen.toNat ∧ f.flen.toNat ≤ maxLen
  | .emitOrResync => False

/-- The framer between two internal steps of a push: the weaker invariant of rule R15 and the
preconditions of rules R92, R93 and R94. -/
def MidPush (maxLen : Nat) (f : Framer) : Prop :=
  f.buf.length ≤ maxLen ∧
  match f.phase with
  | .seekStart => True
  | .readLength => 1 ≤ f.buf.length ∧ f.buf.getD 0 0#8 = START
  | .accumulateBody =>
    3 ≤ f.buf.length ∧ f.buf.getD 0 0#8 = START ∧
    f.flen = le16 (f.buf.getD 1 0#8) (f.buf.getD 2 0#8) ∧ 11 ≤ f.flen.toNat ∧ f.flen.toNat ≤ maxLen
  | .emitOrResync =>
    3 ≤ f.buf.length ∧ f.buf.getD 0 0#8 = START ∧
    f.flen = le16 (f.buf.getD 1 0#8) (f.buf.getD 2 0#8) ∧ 11 ≤ f.flen.toNat ∧
    f.flen.toNat ≤ f.buf.length

/-- The framer has nothing buffered and seeks a START, whatever `FRM.FLEN` last held. -/
def Idle (f : Framer) : Prop := f.phase = .seekStart ∧ f.buf = []

/-- A returned value holds only valid frames (rules R42, R76, R106). -/
def ResultValid (maxLen : Nat) : Result → Prop
  | .u16 _ => True
  | .bool _ => True
  | .bytes bs => ValidFrame bs ∧ bs.length ≤ maxLen
  | .frame f => f.Valid
  | .error _ => True
  | .frames fs _ => ∀ f ∈ fs, f.Valid ∧ 11 ≤ f.length.toNat ∧ f.length.toNat ≤ maxLen

/-- The invariant of the block: the framer is quiescent (rule R15) and every frame ever returned is a
valid one (rule R78). -/
def State.Inv (s : State) : Prop :=
  Quiescent s.config.maxLen s.frm ∧ ∀ r ∈ s.results, ResultValid s.config.maxLen r

/-! ## Runs -/

/-- Instructions issued one after another (rule R6). -/
def execAll : List Instr → State → Host.Outcome State Fault Refusal
  | [], s => .next s
  | i :: rest, s =>
    match exec i s with
    | .next t => execAll rest t
    | .fault e => .fault e
    | .refused e => .refused e

/-- The frames a list of results holds as output of the framer, in order (port `FO`, rule R21). -/
def framesIn : List Result → List Frame
  | [] => []
  | .frames fs _ :: rest => fs ++ framesIn rest
  | .u16 _ :: rest => framesIn rest
  | .bool _ :: rest => framesIn rest
  | .bytes _ :: rest => framesIn rest
  | .frame _ :: rest => framesIn rest
  | .error _ :: rest => framesIn rest

/-- The diagnostic kinds a list of results holds, in order. -/
def diagsIn : List Result → List FrameError
  | [] => []
  | .frames _ ds :: rest => ds ++ diagsIn rest
  | .u16 _ :: rest => diagsIn rest
  | .bool _ :: rest => diagsIn rest
  | .bytes _ :: rest => diagsIn rest
  | .frame _ :: rest => diagsIn rest
  | .error _ :: rest => diagsIn rest

/-- A result without its diagnostic list. -/
def Result.withoutDiags : Result → Result
  | .u16 v => .u16 v
  | .bool v => .bool v
  | .bytes bs => .bytes bs
  | .frame f => .frame f
  | .error e => .error e
  | .frames fs _ => .frames fs []

/-- A run from `s` never stops with a fault (rule R124: the block has no fault state). -/
def NeverFaults (s : State) : Prop := ∀ n e, Host.Core.run Sys2Proof.core n s ≠ .fault e

/-- The loop of FRM.PUSH as a relation: internal steps from `f` until one waits, their results in
order, and the framer then reached (rule R95). -/
inductive RunsUntilWait (maxLen : Nat) : Framer → List StepResult → Framer → Prop where
  | waits {f g : Framer} (h : internalStep maxLen f = .ok (g, .wait)) :
      RunsUntilWait maxLen f [.wait] g
  | goesOn {f g k : Framer} {r : StepResult} {rest : List StepResult}
      (h : internalStep maxLen f = .ok (g, r)) (hr : r ≠ .wait)
      (more : RunsUntilWait maxLen g rest k) : RunsUntilWait maxLen f (r :: rest) k

/-! ## Units -/

/-- The units of the block, and the operations of no state (rules R1, R39). -/
inductive BlockUnit where
  | stateless | crcSerial | streamFramer
deriving DecidableEq, Repr

/-- The unit whose state an instruction touches (rule R39). -/
def unitOf : Instr → BlockUnit
  | .crcClr => .crcSerial
  | .crcUpd _ => .crcSerial
  | .crcRd => .crcSerial
  | .crcCompute _ => .stateless
  | .crcVerify _ _ => .stateless
  | .encReq _ _ _ _ => .stateless
  | .decFrame _ => .stateless
  | .frmPush _ => .streamFramer
  | .frmRst => .streamFramer
  | .frmFeed _ => .streamFramer
  | .readReq _ _ _ _ => .streamFramer
  | .readResp _ _ _ _ => .streamFramer
  | .writeReq _ _ _ _ => .streamFramer
  | .ping _ _ _ _ => .streamFramer
  | .frame _ _ _ _ _ => .streamFramer

/-- What an instruction does to a value held in `CRCREG` (rules R11, R67). -/
def crcRegEffect (c : U16) : Instr → U16
  | .crcClr => 0x0000#16
  | .crcUpd b => crcByte c b
  | .crcRd => c
  | .crcCompute _ => c
  | .crcVerify _ _ => c
  | .encReq _ _ _ _ => c
  | .decFrame _ => c
  | .frmPush _ => c
  | .frmRst => c
  | .frmFeed _ => c
  | .readReq _ _ _ _ => c
  | .readResp _ _ _ _ => c
  | .writeReq _ _ _ _ => c
  | .ping _ _ _ _ => c
  | .frame _ _ _ _ _ => c

/-! ## Reference functions -/

/-- `crc_byte_serial(c, b)`: eight shifts, the bits of `b` taken one at a time, bit 7 first
(40_crc.md rule R68). -/
def crcByteSerial (c : U16) (b : Byte) : U16 :=
  [7, 6, 5, 4, 3, 2, 1, 0].foldl
    (fun c k => if Bool.xor (c.getLsbD 15) (b.getLsbD k) then (c <<< 1) ^^^ 0x1021#16 else c <<< 1) c

/-- `scan(s)` under a bound on the number of its recursive calls (42_framer.md rule R101). -/
def scanUpTo (maxLen : Nat) : Nat → Bytes → List Bytes
  | 0, _ => []
  | _ + 1, [] => []
  | n + 1, b :: rest =>
    let s := b :: rest
    let len := (s.getD 1 0#8).toNat + 256 * (s.getD 2 0#8).toNat
    if b ≠ START then scanUpTo maxLen n rest
    else if s.length < 3 then []
    else if len < 11 ∨ maxLen < len then scanUpTo maxLen n rest
    else if s.length < len then []
    else if ValidFrame (s.take len) then s.take len :: scanUpTo maxLen n (s.drop len)
    else scanUpTo maxLen n rest

/-- `scan(s)`: every recursive call is on a strictly shorter sequence, so as many calls as there are
bytes are enough (rule R101). -/
def scan (maxLen : Nat) (s : Bytes) : List Bytes := scanUpTo maxLen s.length s

/-- A stream laid out as gaps and frames in turn. -/
def layOut (parts : List (Bytes × Frame)) : Bytes := parts.flatMap fun p => p.1 ++ p.2.wire

end Sys2Proof.Machine
end

