-- ==== Sys2Proof/Certificates/Slice0/Obligations.lean ====
section
/-! DEFINITION. The statements for the provers. A docstring names the rule of the spec, and says where
the rule is marked in the spec as its own decision or derivation, or where the model chose. -/

open Sys2Proof Sys2Proof.Machine

/-! ## The CRC Engine -/

/-- CRC.COMPUTE, the whole of 40_crc.md rule R62: the result, the state untouched, the selection code,
the corner cases and the worked example. -/
def Obligations.CrcComputeReturnsCrc16 : Prop :=
  (∀ (bs : Bytes) (s : State),
    exec (.crcCompute bs) s = .next { s with results := s.results ++ [.u16 (crc16 bs)] }) ∧
  selectOp 0x04#8 = some .crcCompute ∧
  crc16 [] = 0x0000#16 ∧
  (∀ (n : Nat) (bs : Bytes), crc16 (List.replicate n 0x00#8 ++ bs) = crc16 bs) ∧
  crc16 [0x31#8, 0x32#8, 0x33#8, 0x34#8, 0x35#8, 0x36#8, 0x37#8, 0x38#8, 0x39#8] = 0x31C3#16

/-- CRC.VERIFY, the whole of 40_crc.md rule R63. -/
def Obligations.CrcVerifyComparesCrc16 : Prop :=
  (∀ (bs : Bytes) (e : U16) (s : State),
    exec (.crcVerify bs e) s =
      .next { s with results := s.results ++ [.bool (decide ((crc16 bs).toNat = e.toNat))] }) ∧
  selectOp 0x05#8 = some .crcVerify ∧
  crc16 [] = 0x0000#16 ∧ crc16 [] ≠ 0x0001#16 ∧
  crc16 [0x31#8, 0x32#8, 0x33#8, 0x34#8, 0x35#8, 0x36#8, 0x37#8, 0x38#8, 0x39#8] = 0x31C3#16 ∧
  crc16 [0x31#8, 0x32#8, 0x33#8, 0x34#8, 0x35#8, 0x36#8, 0x37#8, 0x38#8, 0x39#8] ≠ 0xC331#16

/-- Verifying with the computed value gives `true`, which is the source's property, 40_crc.md rule R69
item 1; and verifying with any other value gives `false`, which follows from rules R62 and R63. -/
def Obligations.VerifyAcceptsExactlyTheComputedValue : Prop :=
  ∀ (bs : Bytes) (e : U16) (s t : State),
    exec (.crcCompute bs) s = .next t →
    ∃ v, t.results = s.results ++ [.u16 v] ∧
      exec (.crcVerify bs v) s = .next { s with results := s.results ++ [.bool true] } ∧
      (e ≠ v →
        exec (.crcVerify bs e) s = .next { s with results := s.results ++ [.bool false] })

/-- CRC.CLR, rule R64 (the spec's own decision D13). -/
def Obligations.CrcClrClearsRegister : Prop :=
  ∀ s : State, exec .crcClr s = .next { s with crcReg := 0x0000#16 }

/-- CRC.UPD, rule R65 (the spec's own decision D13), with its corner cases and worked example. -/
def Obligations.CrcUpdAdvancesRegister : Prop :=
  (∀ (b : Byte) (s : State),
    exec (.crcUpd b) s = .next { s with crcReg := crcByte s.crcReg b }) ∧
  (∀ c : U16, crcByte c (hi8 c) = c <<< 8) ∧
  (∀ c : U16, crcByte (crcByte c (hi8 c)) (lo8 c) = 0x0000#16) ∧
  crcByte 0x0000#16 0x00#8 = 0x0000#16 ∧
  crcByte 0x0000#16 0x31#8 = 0x2672#16 ∧ crcByte 0x2672#16 0x32#8 = 0x20B5#16

/-- CRC.RD, rule R66 (the spec's own decision D13): the value as it stands, the register kept, so that
a second read returns the same. -/
def Obligations.CrcRdReturnsRegister : Prop :=
  ∀ s : State,
    exec .crcRd s = .next { s with results := s.results ++ [.u16 s.crcReg] } ∧
    execAll [.crcRd, .crcRd] s =
      .next { s with results := s.results ++ [.u16 s.crcReg, .u16 s.crcReg] }

/-- Rule R67 (which the spec marks as derived): CRC.CLR, one CRC.UPD for each byte, CRC.RD. -/
def Obligations.SerialPortComputesCrc16 : Prop :=
  ∀ (bs : Bytes) (s : State),
    execAll (.crcClr :: (bs.map Instr.crcUpd ++ [.crcRd])) s =
      .next { s with crcReg := crc16 bs, results := s.results ++ [.u16 (crc16 bs)] }

/-- Rules R11 and R67 (decision D13): over any sequence of instructions of any units, `CRCREG` is what
the serial operations among them make of it. -/
def Obligations.CrcRegisterFollowsSerialOperationsOnly : Prop :=
  ∀ (is : List Instr) (s t : State),
    execAll is s = .next t → t.crcReg = is.foldl crcRegEffect s.crcReg

/-- Rule R69 item 3 (derived in the spec): linearity, of one byte and of sequences of equal length. -/
def Obligations.CrcIsLinear : Prop :=
  (∀ (c1 c2 : U16) (b1 b2 : Byte),
    crcByte (c1 ^^^ c2) (b1 ^^^ b2) = crcByte c1 b1 ^^^ crcByte c2 b2) ∧
  (∀ s t : Bytes, s.length = t.length →
    crc16 (List.zipWith (· ^^^ ·) s t) = crc16 s ^^^ crc16 t)

/-- Rule R69 items 5 and 6 (derived in the spec): incremental computation, and the zero residue of a
CRC appended high byte first. -/
def Obligations.CrcResidueOfBigEndianTailIsZero : Prop :=
  (∀ s t : Bytes, crc16 (s ++ t) = crcFold (crc16 s) t) ∧
  (∀ s : Bytes, crc16 (s ++ [hi8 (crc16 s), lo8 (crc16 s)]) = 0x0000#16)

/-- Rule R68 (derived in the spec): the shift register that takes the bits of the byte one at a time
computes the same function. -/
def Obligations.CrcByteEqualsBitSerialForm : Prop :=
  ∀ (c : U16) (b : Byte), crcByte c b = crcByteSerial c b

/-- Rule R70 (derived in the spec): the table form, and the first entries of the table. -/
def Obligations.CrcByteEqualsTableForm : Prop :=
  (∀ (c : U16) (b : Byte), crcByte c b = (c <<< 8) ^^^ crcByte 0x0000#16 (hi8 c ^^^ b)) ∧
  (List.range 17).map (fun k => crcByte 0x0000#16 (BitVec.ofNat 8 k)) =
    [0x0000#16, 0x1021#16, 0x2042#16, 0x3063#16, 0x4084#16, 0x50A5#16, 0x60C6#16, 0x70E7#16,
     0x8108#16, 0x9129#16, 0xA14A#16, 0xB16B#16, 0xC18C#16, 0xD1AD#16, 0xE1CE#16, 0xF1EF#16,
     0x1231#16] ∧
  crcByte 0x0000#16 0x80#8 = 0x9188#16 ∧ crcByte 0x0000#16 0xFF#8 = 0x1EF0#16

/-! ## The Frame Codec -/

/-- `encode`, the whole of 41_codec.md rule R75. -/
def Obligations.EncodeBuildsTheFrame : Prop :=
  ∀ (dest src : U16) (cmd : Byte) (payload : Bytes), 11 + payload.length ≤ 65535 →
    let L := u16OfNat (11 + payload.length)
    let body := [0x68#8, lo8 L, hi8 L, lo8 dest, hi8 dest, lo8 src, hi8 src, cmd] ++ payload
    encodeBody dest src cmd payload = body ∧
    encodeFrame dest src cmd payload =
      body ++ [lo8 (crc16 body), hi8 (crc16 body), 0x16#8] ∧
    L.toNat = 11 + payload.length ∧
    (encodeFrame dest src cmd payload).length = L.toNat

/-- The layout of rules R40, R41 and R27, read off an encoded frame by offset. That the CRC stands at
`LEN - 3` is the spec's correction of its source (90_conflicts.md C1). -/
def Obligations.EncodedFrameHasTheWireLayout : Prop :=
  ∀ (dest src : U16) (cmd : Byte) (payload : Bytes), 11 + payload.length ≤ 65535 →
    let r := encodeFrame dest src cmd payload
    let L := 11 + payload.length
    let u16At := fun k => (r.getD k 0#8).toNat + 256 * (r.getD (k + 1) 0#8).toNat
    r.length = L ∧ r.getD 0 0#8 = 0x68#8 ∧ u16At 1 = L ∧ u16At 3 = dest.toNat ∧
    u16At 5 = src.toNat ∧ r.getD 7 0#8 = cmd ∧ (r.drop 8).take (L - 11) = payload ∧
    u16At (L - 3) = (crc16 (r.take (L - 3))).toNat ∧ r.getD (L - 1) 0#8 = 0x16#8

/-- ENC.REQ, rule R76 (its bound is the spec's own decision D11), with the worked example. -/
def Obligations.EncReqReturnsFrameOrIsRefused : Prop :=
  (∀ (dest src : U16) (cmd : Byte) (payload : Bytes) (s : State),
    (11 + payload.length ≤ s.config.maxLen →
      exec (.encReq dest src cmd payload) s =
        .next { s with results := s.results ++ [.bytes (encodeFrame dest src cmd payload)] }) ∧
    (s.config.maxLen < 11 + payload.length →
      exec (.encReq dest src cmd payload) s = .refused .payloadTooLong)) ∧
  encodeFrame 0x0001#16 0x0064#16 0x02#8 [0x01#8, 0x00#8, 0x00#8] =
    [0x68#8, 0x0E#8, 0x00#8, 0x01#8, 0x00#8, 0x64#8, 0x00#8, 0x02#8, 0x01#8, 0x00#8, 0x00#8,
     0xE7#8, 0xB1#8, 0x16#8]

/-- Rule R78 (derived in the spec): `decode` answers a `Frame` exactly for valid frames, and that
`Frame` meets the invariants of rule R42. -/
def Obligations.DecodeAcceptsExactlyValidFrames : Prop :=
  ∀ r : Bytes, ((∃ f, decodeFrame r = .ok f) ↔ ValidFrame r) ∧
    ∀ f, decodeFrame r = .ok f → f.Valid

/-- DEC.FRAME, rules R77 and R79, outcome by outcome; the size and length checks and the order of the
checks are the spec's own decisions D9 and D10. -/
def Obligations.DecFrameReturnsFieldsOrError : Prop :=
  ∀ (r : Bytes) (s : State),
    let n := r.length
    let u16At := fun k => le16 (r.getD k 0#8) (r.getD (k + 1) 0#8)
    let headerOk := 11 ≤ n ∧ r.getD 0 0#8 = 0x68#8 ∧ r.getD (n - 1) 0#8 = 0x16#8 ∧ (u16At 1).toNat = n
    let returns := fun x => exec (.decFrame r) s = .next { s with results := s.results ++ [x] }
    (¬ headerOk → returns (.error .malformedHeader)) ∧
    (headerOk → crc16 (r.take (n - 3)) ≠ u16At (n - 3) → returns (.error .crcMismatch)) ∧
    (headerOk → crc16 (r.take (n - 3)) = u16At (n - 3) →
      returns (.frame
        { start := 0x68#8, length := u16At 1, dest := u16At 3, src := u16At 5, cmd := r.getD 7 0#8,
          data := (r.drop 8).take (n - 11), crc := u16At (n - 3), stop := 0x16#8 }))

/-- `CRCMismatch`, 60_exceptions.md rule R117: its one cause in `decode`, and the one phase of the
framer it arises in. -/
def Obligations.CrcMismatchHasOneCause : Prop :=
  (∀ r : Bytes,
    decodeFrame r = .error .crcMismatch ↔
      (11 ≤ r.length ∧ r.getD 0 0#8 = 0x68#8 ∧ r.getD (r.length - 1) 0#8 = 0x16#8 ∧
        (r.getD 1 0#8).toNat + 256 * (r.getD 2 0#8).toNat = r.length) ∧
      (crc16 (r.take (r.length - 3))).toNat ≠
        (r.getD (r.length - 3) 0#8).toNat + 256 * (r.getD (r.length - 2) 0#8).toNat) ∧
  (∀ (m : Nat) (f g : Framer),
    internalStep m f = .ok (g, .resync .crcMismatch) → f.phase = .emitOrResync)

/-- `MalformedHeader`, rules R116 and R121 (causes 1, 4 and 5 and the priority are the spec's own
decisions D9, D16 and D10): its causes in `decode`, and in the framer, where inside a push only an
out-of-range length or a wrong last byte raises it. -/
def Obligations.MalformedHeaderCauses : Prop :=
  (∀ r : Bytes,
    decodeFrame r = .error .malformedHeader ↔
      (r.length < 11 ∨ r.getD 0 0#8 ≠ 0x68#8 ∨ r.getD (r.length - 1) 0#8 ≠ 0x16#8 ∨
        (r.getD 1 0#8).toNat + 256 * (r.getD 2 0#8).toNat ≠ r.length)) ∧
  (∀ (m : Nat) (f g : Framer), MidPush m f →
    internalStep m f = .ok (g, .resync .malformedHeader) →
    (f.phase = .readLength ∧ 3 ≤ f.buf.length ∧
      ((f.buf.getD 1 0#8).toNat + 256 * (f.buf.getD 2 0#8).toNat < 11 ∨
        m < (f.buf.getD 1 0#8).toNat + 256 * (f.buf.getD 2 0#8).toNat)) ∨
    (f.phase = .emitOrResync ∧ f.flen.toNat ≤ f.buf.length ∧
      f.buf.getD (f.flen.toNat - 1) 0#8 ≠ 0x16#8))

/-- The source's property, rule R80 (derived in the spec): decoding an encoded frame gives its fields
back. -/
def Obligations.DecodeOfEncodedFrameIsItsFields : Prop :=
  ∀ (dest src : U16) (cmd : Byte) (payload : Bytes), 11 + payload.length ≤ 65535 →
    decodeFrame (encodeFrame dest src cmd payload) =
      .ok { start := 0x68#8, length := u16OfNat (11 + payload.length), dest := dest, src := src,
            cmd := cmd, data := payload, crc := crc16 (encodeBody dest src cmd payload),
            stop := 0x16#8 }

/-- Rule R81 (derived in the spec): encoding a decoded frame's fields gives the range back. -/
def Obligations.EncodeOfDecodedFrameIsTheRange : Prop :=
  ∀ (r : Bytes) (f : Frame),
    decodeFrame r = .ok f → encodeFrame f.dest f.src f.cmd f.data = r

/-- Rule R82 (derived in the spec): a valid frame with one byte changed does not decode. -/
def Obligations.SingleCorruptedByteIsDetected : Prop :=
  ∀ (r : Bytes) (i : Nat) (b : Byte),
    ValidFrame r → i < r.length → b ≠ r.getD i 0#8 →
    ∃ e, decodeFrame (r.set i b) = .error e

/-! ## The framer's phase steps -/

/-- Rule R91 (its second arm is the spec's own decision D7). -/
def Obligations.SeekStartStepFindsFirstStart : Prop :=
  ∀ (m : Nat) (f : Framer), f.phase = .seekStart →
    (∀ i, i < f.buf.length → f.buf.getD i 0#8 = 0x68#8 → (∀ j < i, f.buf.getD j 0#8 ≠ 0x68#8) →
      internalStep m f = .ok ({ f with buf := f.buf.drop i, phase := .readLength }, .progress)) ∧
    ((∀ b ∈ f.buf, b ≠ 0x68#8) → internalStep m f = .ok ({ f with buf := [] }, .wait))

/-- Rule R92 (when the length is read, its inclusive bounds and the error's name are the spec's own
decisions D6, D4, D8 and D16). -/
def Obligations.ReadLengthStepTakesOrRejectsLength : Prop :=
  ∀ (m : Nat) (f : Framer), f.phase = .readLength →
    let L := (f.buf.getD 1 0#8).toNat + 256 * (f.buf.getD 2 0#8).toNat
    (f.buf.length < 3 → internalStep m f = .ok (f, .wait)) ∧
    (3 ≤ f.buf.length → L < 11 ∨ m < L →
      internalStep m f =
        .ok ({ f with buf := f.buf.drop 1, phase := .seekStart }, .resync .malformedHeader)) ∧
    (3 ≤ f.buf.length → 11 ≤ L → L ≤ m →
      internalStep m f =
        .ok ({ f with flen := u16OfNat L, phase := .accumulateBody }, .progress))

/-- Rule R93. -/
def Obligations.AccumulateBodyStepWaitsForDeclaredLength : Prop :=
  ∀ (m : Nat) (f : Framer), f.phase = .accumulateBody →
    (f.buf.length < f.flen.toNat → internalStep m f = .ok (f, .wait)) ∧
    (f.flen.toNat ≤ f.buf.length →
      internalStep m f = .ok ({ f with phase := .emitOrResync }, .progress))

/-- Rule R94: the two arms, and that inside a push the codec fails only on STOP or the CRC. -/
def Obligations.EmitOrResyncStepEmitsOrDropsOneByte : Prop :=
  ∀ (m : Nat) (f : Framer), f.phase = .emitOrResync → f.flen.toNat ≤ f.buf.length → f.buf ≠ [] →
    let r := f.buf.take f.flen.toNat
    (∀ fr, decodeFrame r = .ok fr →
      internalStep m f =
        .ok ({ f with buf := f.buf.drop f.flen.toNat, phase := .seekStart }, .emit fr)) ∧
    (∀ e, decodeFrame r = .error e →
      internalStep m f = .ok ({ f with buf := f.buf.drop 1, phase := .seekStart }, .resync e)) ∧
    (MidPush m f →
      (decodeFrame r = .error .malformedHeader ↔ r.getD (f.flen.toNat - 1) 0#8 ≠ 0x16#8))

/-- The reaction to an error, rule R122: whatever the kind and the phase, one byte is dropped, the
START byte of the candidate, the phase is `SEEK_START`, `FRM.FLEN` is kept, and the kind is recorded
when `DIAG`; DEC.FRAME changes none of the block's state. -/
def Obligations.ResyncDropsTheStartByteOnly : Prop :=
  (∀ (m : Nat) (f g : Framer) (k : FrameError),
    internalStep m f = .ok (g, .resync k) →
    f.buf ≠ [] ∧ g = { phase := .seekStart, buf := f.buf.drop 1, flen := f.flen } ∧
    (MidPush m f → f.buf.getD 0 0#8 = 0x68#8)) ∧
  (∀ (c : Config) (k : FrameError) (pre post : List StepResult),
    framerResult c (pre ++ .resync k :: post) =
      .frames (framesOf pre ++ framesOf post)
        (if c.diag then diagsOf pre ++ k :: diagsOf post else [])) ∧
  (∀ (r : Bytes) (s t : State), exec (.decFrame r) s = .next t →
    t.crcReg = s.crcReg ∧ t.frm = s.frm)

/-- The buffer primitives, 20_memory.md rule R31: the effect of each in its domain, that the append of
a push is in its domain, and that internal steps take bytes from the head only. -/
def Obligations.BufferChangesByItsPrimitivesOnly : Prop :=
  (∀ (cap : Nat) (b : Byte) (f : Framer), f.buf.length < cap →
    bufAppend cap b f = .ok { f with buf := f.buf ++ [b] }) ∧
  (∀ (k : Nat) (f : Framer), k ≤ f.buf.length →
    bufDrop k f = .ok { f with buf := f.buf.drop k }) ∧
  (∀ f : Framer, bufClear f = { f with buf := [] }) ∧
  (∀ (c : Config) (f : Framer), Quiescent c.maxLen f → f.buf.length < c.bufCap) ∧
  (∀ (m : Nat) (f g : Framer) (r : StepResult),
    internalStep m f = .ok (g, r) → g.buf <:+ f.buf)

/-! ## The framer's operations -/

/-- FRM.PUSH, rule R95 (that the whole is one operation is the spec's own decision D14): from a
quiescent framer the push is answered; the byte is appended, the internal steps run until one waits,
and the frames (and with `DIAG` the kinds) are returned in order. The run is unique. -/
def Obligations.PushAppendsThenStepsUntilWait : Prop :=
  (∀ (b : Byte) (s : State), Quiescent s.config.maxLen s.frm →
    ∃ g trace,
      RunsUntilWait s.config.maxLen { s.frm with buf := s.frm.buf ++ [b] } trace g ∧
      exec (.frmPush b) s =
        .next { s with
          frm := g
          results := s.results ++
            [.frames (framesOf trace) (if s.config.diag then diagsOf trace else [])] }) ∧
  (∀ (m : Nat) (f g h : Framer) (t u : List StepResult),
    RunsUntilWait m f t g → RunsUntilWait m f u h → t = u ∧ g = h)

/-- FRM.FEED, the whole of rule R96: it is its pushes in order, with their results concatenated; an
empty chunk does nothing; cutting a chunk in two changes nothing but how the results are grouped; and
the worked example, from reset. -/
def Obligations.FeedIsItsPushesInOrder : Prop :=
  (∀ (bs : Bytes) (s : State), Quiescent s.config.maxLen s.frm →
    ∃ u rs, execAll (bs.map Instr.frmPush) s = .next u ∧ u.results = s.results ++ rs ∧
      exec (.frmFeed bs) s =
        .next { u with results := s.results ++ [.frames (framesIn rs) (diagsIn rs)] }) ∧
  (∀ s : State,
    exec (.frmFeed []) s = .next { s with results := s.results ++ [.frames [] []] }) ∧
  (∀ (a b : Bytes) (s : State), Quiescent s.config.maxLen s.frm →
    ∃ u rs, execAll [.frmFeed a, .frmFeed b] s = .next u ∧ u.results = s.results ++ rs ∧
      exec (.frmFeed (a ++ b)) s =
        .next { u with results := s.results ++ [.frames (framesIn rs) (diagsIn rs)] }) ∧
  execAll [.frmFeed [0x68#8, 0x0B#8, 0x00#8],
      .frmFeed [0x01#8, 0x00#8, 0x00#8, 0x00#8, 0x09#8, 0x35#8], .frmFeed [0xE3#8, 0x16#8]]
      State.reset =
    .next { State.reset with
      frm := { phase := .seekStart, buf := [], flen := 0x000B#16 }
      results :=
        [.frames [] [], .frames [] [],
         .frames
          [{ start := 0x68#8, length := 0x000B#16, dest := 0x0001#16, src := 0x0000#16, cmd := 0x09#8,
             data := [], crc := 0xE335#16, stop := 0x16#8 }] []] }

/-- FRM.RST, rule R104 (the spec's own decision D18). -/
def Obligations.FrmRstEmptiesTheFramer : Prop :=
  ∀ s : State,
    exec .frmRst s = .next { s with frm := { phase := .seekStart, buf := [], flen := 0x0000#16 } }

/-- Rule R102 (derived in the spec): from an idle framer, however a stream is cut into chunks, the
frames returned are, in wire form, `scan` of the whole stream. -/
def Obligations.ChunkedFeedsEqualScan : Prop :=
  ∀ (chunks : List Bytes) (s : State), Idle s.frm →
    ∃ t rs, execAll (chunks.map Instr.frmFeed) s = .next t ∧ t.results = s.results ++ rs ∧
      (framesIn rs).map Frame.wire = scan s.config.maxLen chunks.flatten

/-- Rules R101 and R102 (derived in the spec): the model's `scan` satisfies the recursion of rule R101
line by line, and frames once emitted are never taken back. -/
def Obligations.ScanIsItsRecursionAndMonotone : Prop :=
  (∀ m : Nat, scan m [] = []) ∧
  (∀ (m : Nat) (b : Byte) (rest : Bytes),
    let s := b :: rest
    let L := (s.getD 1 0#8).toNat + 256 * (s.getD 2 0#8).toNat
    (b ≠ 0x68#8 → scan m s = scan m rest) ∧
    (b = 0x68#8 → s.length < 3 → scan m s = []) ∧
    (b = 0x68#8 → 3 ≤ s.length → L < 11 ∨ m < L → scan m s = scan m rest) ∧
    (b = 0x68#8 → 11 ≤ L → L ≤ m → 3 ≤ s.length → s.length < L → scan m s = []) ∧
    (b = 0x68#8 → 11 ≤ L → L ≤ m → L ≤ s.length → ValidFrame (s.take L) →
      scan m s = s.take L :: scan m (s.drop L)) ∧
    (b = 0x68#8 → 11 ≤ L → L ≤ m → L ≤ s.length → ¬ ValidFrame (s.take L) →
      scan m s = scan m rest)) ∧
  (∀ (m : Nat) (s t : Bytes), scan m s <+: scan m (s ++ t))

/-- Rule R97 (derived in the spec): a step that does not wait shortens the buffer, or keeps it and
moves the phase up; so a push makes at most `4 * (n + 1)` steps, `n` bytes being buffered after the
append. -/
def Obligations.PushTerminatesWithinItsBound : Prop :=
  (∀ (m : Nat) (f g : Framer) (r : StepResult), internalStep m f = .ok (g, r) → r ≠ .wait →
    g.buf.length < f.buf.length ∨
      (g.buf.length = f.buf.length ∧ f.phase.code < g.phase.code)) ∧
  (∀ (c : Config) (b : Byte) (f g : Framer) (trace : List StepResult),
    pushByte c b f = .ok (g, trace) → trace.length ≤ 4 * (f.buf.length + 1 + 1)) ∧
  (∀ (c : Config) (b : Byte) (f : Framer), pushByte c b f ≠ .error .stepCountSpent)

/-- Rule R98 (derived in the spec): inside a push the quiescent framers are exactly those whose next
step would wait and change nothing, and FRM.PUSH and FRM.RST end in one. -/
def Obligations.QuiescentIsWhereTheNextStepWaits : Prop :=
  (∀ (m : Nat) (f : Framer), MidPush m f →
    (internalStep m f = .ok (f, .wait) ↔ Quiescent m f)) ∧
  (∀ (b : Byte) (s t : State), Quiescent s.config.maxLen s.frm →
    exec (.frmPush b) s = .next t → Quiescent t.config.maxLen t.frm) ∧
  (∀ s t : State, exec .frmRst s = .next t → Quiescent t.config.maxLen t.frm)

/-- Rule R100 (derived in the spec): the buffer bound, between pushes and inside one, so that FRM.PUSH
never overflows. -/
def Obligations.BufferNeverExceedsMaxLen : Prop :=
  (∀ (c : Config) (f : Framer), Quiescent c.maxLen f → f.buf.length ≤ c.maxLen - 1) ∧
  (∀ (m : Nat) (f g : Framer) (r : StepResult), MidPush m f → internalStep m f = .ok (g, r) →
    g.buf.length ≤ f.buf.length ∧ MidPush m g) ∧
  (∀ (b : Byte) (s : State), Quiescent s.config.maxLen s.frm →
    MidPush s.config.maxLen { s.frm with buf := s.frm.buf ++ [b] } ∧
    ∃ t, exec (.frmPush b) s = .next t)

/-- Rule R14 (derived in the spec): in `SEEK_START` and `READ_LENGTH` no step depends on `FRM.FLEN`; a
push from there returns the same whatever it holds, and leaves the same state but for a stale
`FRM.FLEN`. -/
def Obligations.FlenIsUnreadBeforeItIsWritten : Prop :=
  ∀ (c : Config) (b : Byte) (f g : Framer) (trace : List StepResult) (x : U16),
    f.phase = .seekStart ∨ f.phase = .readLength →
    pushByte c b f = .ok (g, trace) →
    ∃ y, pushByte c b { f with flen := x } = .ok ({ g with flen := y }, trace) ∧
      (g.phase = .accumulateBody → y = g.flen)

/-! ## Laws of the framer -/

/-- Rule R105 (derived in the spec), the first-frame law: from an idle framer, after bytes none of
which is START, a valid frame of accepted length is returned by the push of its last byte and not
before. -/
def Obligations.FirstFrameIsEmittedAtItsLastByte : Prop :=
  ∀ (s : State) (gap r : Bytes), Idle s.frm → (∀ b ∈ gap, b ≠ 0x68#8) → ValidFrame r →
    r.length ≤ s.config.maxLen →
    ∃ f s1, decodeFrame r = .ok f ∧
      exec (.frmFeed (gap ++ r.dropLast)) s = .next s1 ∧
      s1.results = s.results ++ [.frames [] []] ∧
      exec (.frmPush (r.getD (r.length - 1) 0#8)) s1 =
        .next { s with
          frm := { phase := .seekStart, buf := [], flen := f.length }
          results := s.results ++ [.frames [] [], .frames [f] []] }

/-- Rule R105, last sentence (derived in the spec): valid frames with START-free gaps between them, of
any length and number, are reframed exactly. -/
def Obligations.FramesWithStartFreeGapsAreReframedExactly : Prop :=
  ∀ (s : State) (parts : List (Bytes × Frame)), Idle s.frm →
    (∀ p ∈ parts, (∀ b ∈ p.1, b ≠ 0x68#8) ∧ p.2.Valid ∧ p.2.length.toNat ≤ s.config.maxLen) →
    ∃ g, Idle g ∧
      exec (.frmFeed (layOut parts)) s =
        .next { s with frm := g, results := s.results ++ [.frames (parts.map Prod.snd) []] }

/-- The resync property of rule R103 with its side condition (derived in the spec): between two valid
frames, noise in which no START byte begins a candidate that overruns the stream or is itself valid
costs neither frame and adds none. -/
def Obligations.ResyncRecoversTheSecondFrame : Prop :=
  ∀ (s : State) (f1 f2 : Frame) (noise : Bytes), Idle s.frm →
    f1.Valid → f1.length.toNat ≤ s.config.maxLen →
    f2.Valid → f2.length.toNat ≤ s.config.maxLen →
    (let stream := noise ++ f2.wire
     ∀ p < noise.length, stream.getD p 0#8 = 0x68#8 →
      let L := (stream.getD (p + 1) 0#8).toNat + 256 * (stream.getD (p + 2) 0#8).toNat
      (L < 11 ∨ s.config.maxLen < L) ∨
        (p + L ≤ stream.length ∧ ¬ ValidFrame ((stream.drop p).take L))) →
    ∃ g ds, Idle g ∧
      exec (.frmFeed (f1.wire ++ noise ++ f2.wire)) s =
        .next { s with frm := g, results := s.results ++ [.frames [f1, f2] ds] }

/-- Rules R106 and R36 (derived in the spec): what is buffered and fed is, in order, gaps and the
emitted frames, then bytes dropped and the bytes still buffered; so emitted frames are contiguous
pieces of the stream, in order and disjoint, each of them valid and of accepted length. -/
def Obligations.EmittedFramesAreDisjointPiecesOfTheStream : Prop :=
  ∀ (bs : Bytes) (s : State), Quiescent s.config.maxLen s.frm →
    ∃ g parts dropped ds,
      exec (.frmFeed bs) s =
        .next { s with frm := g, results := s.results ++ [.frames (parts.map Prod.snd) ds] } ∧
      s.frm.buf ++ bs = layOut parts ++ (dropped ++ g.buf) ∧
      ∀ p ∈ parts, p.2.Valid ∧ 11 ≤ p.2.length.toNat ∧ p.2.length.toNat ≤ s.config.maxLen

/-- Rules R107 and R141 (derived and decided in the spec): a candidate whose bytes have not all come
holds the framer; nothing is emitted, every byte is kept, and the hold is at most `MAX_LEN - 3`
further bytes. -/
def Obligations.IncompleteCandidateHoldsTheFramer : Prop :=
  ∀ (bs : Bytes) (s : State), Quiescent s.config.maxLen s.frm → s.frm.phase = .accumulateBody →
    s.frm.flen.toNat - s.frm.buf.length ≤ s.config.maxLen - 3 ∧
    (s.frm.buf.length + bs.length < s.frm.flen.toNat →
      exec (.frmFeed bs) s =
        .next { s with
          frm := { s.frm with buf := s.frm.buf ++ bs }
          results := s.results ++ [.frames [] []] })

/-- The frame that ENC.REQ returns is one the block's own framer emits, with the fields it was built
of (rules R76, R80 and R105, decision D11; program P2 of 95_test_vectors.md is an instance). -/
def Obligations.LoopbackOfEncReqEmitsTheRequest : Prop :=
  ∀ (dest src : U16) (cmd : Byte) (payload : Bytes) (s : State), Idle s.frm →
    11 + payload.length ≤ s.config.maxLen →
    ∃ t bs, exec (.encReq dest src cmd payload) s = .next t ∧ t.results = s.results ++ [.bytes bs] ∧
      exec (.frmFeed bs) t =
        .next { t with
          frm := { phase := .seekStart, buf := [], flen := u16OfNat (11 + payload.length) }
          results := t.results ++ [.frames [builtFrame dest src cmd payload] []] }

/-! ## The rows of format WIRE (the model's choice: notes/assumptions/5.md) -/

/-- A frame candidate on the wire, of any of the five rows, is the chunk of its bytes at the `RX` port:
the model's choice (notes/assumptions/5.md), since rule R51 gives the rows no operation. From a
quiescent framer it is answered. -/
def Obligations.WireRowsDeliverTheirBytes : Prop :=
  ∀ (len dest src : U16) (tail : Bytes) (s : State), Quiescent s.config.maxLen s.frm →
    let bytes := fun cmd =>
      [0x68#8, lo8 len, hi8 len, lo8 dest, hi8 dest, lo8 src, hi8 src, cmd] ++ tail
    (∃ t, exec (.readReq len dest src tail) s = .next t ∧
      exec (.frmFeed (bytes 0x02#8)) s = .next t) ∧
    (∃ t, exec (.readResp len dest src tail) s = .next t ∧
      exec (.frmFeed (bytes 0x82#8)) s = .next t) ∧
    (∃ t, exec (.writeReq len dest src tail) s = .next t ∧
      exec (.frmFeed (bytes 0x03#8)) s = .next t) ∧
    (∃ t, exec (.ping len dest src tail) s = .next t ∧
      exec (.frmFeed (bytes 0x09#8)) s = .next t) ∧
    (∀ cmd, ∃ t, exec (.frame len dest src cmd tail) s = .next t ∧
      exec (.frmFeed (bytes cmd)) s = .next t)

/-- A valid frame on the wire, of any function code, is emitted with its fields (rule R45, rule R105;
that the rows are deliveries at `RX` is the model's choice, notes/assumptions/5.md). -/
def Obligations.ValidWireFramesAreEmittedWhateverTheirCommand : Prop :=
  ∀ (dest src : U16) (payload : Bytes) (s : State), Idle s.frm →
    11 + payload.length ≤ s.config.maxLen →
    let L := u16OfNat (11 + payload.length)
    let tail := fun cmd => builtTail dest src cmd payload
    let emitted := fun cmd =>
      Host.Outcome.next (φ := Fault) (ρ := Refusal)
        { s with
          frm := { phase := .seekStart, buf := [], flen := L }
          results := s.results ++ [.frames [builtFrame dest src cmd payload] []] }
    exec (.readReq L dest src (tail 0x02#8)) s = emitted 0x02#8 ∧
    exec (.readResp L dest src (tail 0x82#8)) s = emitted 0x82#8 ∧
    exec (.writeReq L dest src (tail 0x03#8)) s = emitted 0x03#8 ∧
    exec (.ping L dest src (tail 0x09#8)) s = emitted 0x09#8 ∧
    ∀ cmd, exec (.frame L dest src cmd (tail cmd)) s = emitted cmd

/-! ## The block as a whole -/

/-- Rules R23, R98 and R135 (the reset values are the spec's own decision D17): the reset state meets
the invariant, under any configuration. -/
def Obligations.ResetStateMeetsTheInvariant : Prop :=
  State.reset.Inv ∧ ∀ c : Config, (State.resetWith c).Inv

/-- Rules R15, R78 and R106 (derived in the spec): every step from a state that meets the invariant
leads to one. -/
def Obligations.EveryStepKeepsTheInvariant : Prop :=
  ∀ s t : State, s.Inv → step s = .next t → t.Inv

/-- Rules R124 and R100 (derived in the spec): no run from a state that meets the invariant stops with
a fault. -/
def Obligations.RunsFromGoodStatesNeverFault : Prop :=
  ∀ s : State, s.Inv → NeverFaults s

/-- Rules R115 and R124: from a quiescent framer every instruction completes, but for ENC.REQ with too
long a payload, which is refused. -/
def Obligations.EveryInstructionCompletesOrIsTooLong : Prop :=
  ∀ (i : Instr) (s : State), Quiescent s.config.maxLen s.frm →
    (∃ t, exec i s = .next t) ∨
    (∃ dest src cmd payload, i = .encReq dest src cmd payload ∧
      s.config.maxLen < 11 + payload.length ∧ exec i s = .refused .payloadTooLong)

/-- Rules R10, R11, R20 and R39: the frame of every instruction. The configuration and the input stay,
earlier results stay and at most one is added, only the serial CRC operations may change `CRCREG`
(CRC.RD does not), and only the framer's operations may change the framer. -/
def Obligations.UnitsTouchOnlyTheirOwnState : Prop :=
  ∀ (i : Instr) (s t : State), exec i s = .next t →
    t.config = s.config ∧ t.input = s.input ∧
    (∃ rs, t.results = s.results ++ rs ∧ rs.length ≤ 1) ∧
    (unitOf i ≠ .crcSerial ∨ i = .crcRd → t.crcReg = s.crcReg) ∧
    (unitOf i ≠ .streamFramer → t.frm = s.frm)

/-- Rule R39 (derived in the spec): operations of different units commute, and so do stateless ones
with any: the same results, the same final state. -/
def Obligations.OperationsOfDifferentUnitsCommute : Prop :=
  ∀ (i j : Instr) (s a b : State), unitOf i ≠ unitOf j ∨ unitOf i = .stateless →
    exec i s = .next a → exec j a = .next b →
    ∃ c ri rj, a.results = s.results ++ ri ∧ b.results = s.results ++ ri ++ rj ∧
      exec j s = .next c ∧ c.results = s.results ++ rj ∧
      exec i c = .next { b with results := s.results ++ rj ++ ri }

/-- Rule R35, promise (a) (the spec's reading D24): what an instruction does depends on its operands,
the configuration and the block's four pieces of state, not on what else has been issued or
returned. -/
def Obligations.OutcomeDependsOnlyOnBlockState : Prop :=
  ∀ (i : Instr) (s t : State) (x : List HostEvent) (y : List Result), exec i s = .next t →
    ∃ rs, t.results = s.results ++ rs ∧
      exec i { s with input := x, results := y } =
        .next { t with input := x, results := y ++ rs }

/-- Rule R131 (the spec's own decision D16): no frame output and no state depends on `DIAG`. -/
def Obligations.DiagnosticsChangeNothingElse : Prop :=
  ∀ (i : Instr) (s t : State) (c : Config), c.maxLen = s.config.maxLen → exec i s = .next t →
    ∃ u, exec i { s with config := c } = .next u ∧ u.crcReg = t.crcReg ∧ u.frm = t.frm ∧
      u.results.map Result.withoutDiags = t.results.map Result.withoutDiags

/-! ## Steps and encodings -/

/-- A step runs the instruction that the oldest item issued decodes to, on the state with that
instruction taken from the input (how the host's input is held is the model's choice,
notes/assumptions/2.md and 15.md). A transaction at a port (rule R21) is such an item, with operands of
any length, and every primitive operation is one; the other instructions come as bytes at `RX`. With
nothing issued the block holds its state (rule R132). -/
def Obligations.StepRunsTheDecodedInstruction : Prop :=
  (∀ (s : State) (item : PortItem) (rest : List HostEvent) (i : Instr) (left : Option PortItem),
    s.input = .offer item :: rest → decode item = .ok (i, left) →
    step s = exec i { s with input := (left.map HostEvent.offer).toList ++ rest }) ∧
  (∀ (s : State) (t : Transaction) (rest : List HostEvent),
    s.input = .offer (.transaction t) :: rest → step s = exec t.instr { s with input := rest }) ∧
  (∀ i : Instr, (∃ t : Transaction, t.instr = i) ∨
    ∃ bs, encode i = .rxRead bs ∨ encode i = .rxTraffic bs) ∧
  (∀ (s : State) (bs : Bytes) (rest : List HostEvent),
    s.input = .offer (.transaction (.crcCompute bs)) :: rest →
    step s = .next { s with input := rest, results := s.results ++ [.u16 (crc16 bs)] }) ∧
  (∀ s : State, s.input = [] → step s = .next s)

/-- The reset event, 70_reset_and_hazards.md rules R135 and R137 (the values are the spec's own
decision D17; that results and later input stay is the model's, notes/assumptions/4.md). -/
def Obligations.ResetEventRestoresResetValues : Prop :=
  ∀ (s : State) (rest : List HostEvent), s.input = .reset :: rest →
    step s =
      .next { s with
        crcReg := 0x0000#16
        frm := { phase := .seekStart, buf := [], flen := 0x0000#16 }
        input := rest }

/-- Rules R50 and R118 (the spec's own decision D3): a selection byte that is 0, or above 9, is
refused. -/
def Obligations.ReservedSelectionIsRefused : Prop :=
  ∀ (s : State) (sel : Byte) (bs : Bytes) (rest : List HostEvent),
    s.input = .offer (.ops (sel :: bs)) :: rest → sel.toNat = 0 ∨ 9 < sel.toNat →
    step s = .refused (.reservedOperation sel)

/-- Rules R48 and R51 (the spec's own decision D3): the selection codes, that no byte selects two rows,
and words written out from the encodings of rules R40, R44 and R49 (the programs and vectors of
95_test_vectors.md), which decode to the instructions they stand for. The last clause, that the whole
candidate `A` in traffic (rule R46) is read as READ_REQ with its header fields and its tail, is the
model's choice (notes/assumptions/5.md, notes/assumptions/6.md), since rule R51 gives the wire rows no
operation. -/
def Obligations.SelectionCodesAndSampleWordsDecode : Prop :=
  (∀ (sel : Byte) (op : OpCode), selectOp sel = some op ↔ sel = op.sel) ∧
  (∀ sel : Byte, (opTable.filter (·.selects sel)).length ≤ 1) ∧
  decodeOp [0x02#8, 0x31#8] = .ok (.crcUpd 0x31#8, []) ∧
  decodeOp [0x05#8, 0x02#8, 0x00#8, 0x41#8, 0x42#8, 0x7B#8, 0x56#8] =
    .ok (.crcVerify [0x41#8, 0x42#8] 0x567B#16, []) ∧
  decodeOp [0x06#8, 0x20#8, 0x00#8, 0x64#8, 0x00#8, 0x02#8, 0x03#8, 0x00#8, 0x01#8, 0x07#8, 0x00#8] =
    .ok (.encReq 0x0020#16 0x0064#16 0x02#8 [0x01#8, 0x07#8, 0x00#8], []) ∧
  decodeOp [0x08#8, 0x68#8, 0x09#8] = .ok (.frmPush 0x68#8, [0x09#8]) ∧
  decodeTraffic [0x68#8, 0x0E#8, 0x00#8, 0x01#8, 0x00#8, 0x64#8, 0x00#8, 0x02#8, 0x01#8, 0x00#8,
      0x00#8, 0xE7#8, 0xB1#8, 0x16#8] =
    .ok (.readReq 0x000E#16 0x0001#16 0x0064#16
      [0x01#8, 0x00#8, 0x00#8, 0xE7#8, 0xB1#8, 0x16#8], [])

/-- Decode and encode agree: for every well-formed instruction, whatever bytes follow its encoding,
the decoder reads it back and leaves just those bytes (rules R49 and R51; the wire rows' encoding at
a port is the model's, notes/assumptions/5.md). -/
def Obligations.DecodeOfEncodeIsTheInstruction : Prop :=
  ∀ i : Instr, WellFormed i = true →
    decode (encode i) = .ok (i, none) ∧
    ∀ more : Bytes,
      (∀ bs, encode i = .ops bs → decodeOp (bs ++ more) = .ok (i, more)) ∧
      (∀ bs, encode i = .rxTraffic bs → decodeTraffic (bs ++ more) = .ok (i, more))

/-- Every transaction has one meaning (rule R49): what the decoder reads is a well-formed instruction,
and the bytes it took are that instruction's encoding. -/
def Obligations.DecodedOperationIsItsEncoding : Prop :=
  ∀ (bs more : Bytes) (i : Instr), decodeOp bs = .ok (i, more) →
    WellFormed i = true ∧ ∃ taken, encode i = .ops taken ∧ bs = taken ++ more

/-- Bus traffic, whatever its bytes, is taken as instructions that deliver every byte to the framer in
order (rules R21 and R96; the model's choice, notes/assumptions/5.md). -/
def Obligations.TrafficIsDeliveredWhole : Prop :=
  ∀ bs : Bytes, bs ≠ [] →
    ∃ i taken rest, decodeTraffic bs = .ok (i, rest) ∧ taken ≠ [] ∧ bs = taken ++ rest ∧
      ∀ s : State, exec i s = exec (.frmFeed taken) s
end

