-- ==== Sys2Proof/Laws/Words.lean ====
section
/-! SUPPORT. The byte order helpers undo each other (20_memory.md rule R27), and what they are as
numbers. -/

namespace Sys2Proof

theorem lo8_toNat (v : U16) : (lo8 v).toNat = v.toNat % 256 := by
  simp [lo8]

theorem hi8_toNat (v : U16) : (hi8 v).toNat = v.toNat / 256 := by
  have := v.isLt
  simp only [hi8, BitVec.toNat_ofNat]
  omega

theorem le16_toNat (b0 b1 : Byte) : (le16 b0 b1).toNat = b0.toNat + 256 * b1.toNat := by
  have h0 := b0.isLt
  have h1 := b1.isLt
  simp only [le16, BitVec.toNat_ofNat]
  omega

@[simp] theorem le16_lo8_hi8 (v : U16) : le16 (lo8 v) (hi8 v) = v := by
  apply BitVec.eq_of_toNat_eq
  rw [le16_toNat, lo8_toNat, hi8_toNat]
  omega

@[simp] theorem lo8_le16 (b0 b1 : Byte) : lo8 (le16 b0 b1) = b0 := by
  apply BitVec.eq_of_toNat_eq
  have h0 := b0.isLt
  rw [lo8_toNat, le16_toNat]
  omega

@[simp] theorem hi8_le16 (b0 b1 : Byte) : hi8 (le16 b0 b1) = b1 := by
  apply BitVec.eq_of_toNat_eq
  have h0 := b0.isLt
  rw [hi8_toNat, le16_toNat]
  omega

theorem u16OfNat_toNat {n : Nat} (h : n ≤ 65535) : (u16OfNat n).toNat = n := by
  simp only [u16OfNat, BitVec.toNat_ofNat]
  omega

@[simp] theorem u16OfNat_of_toNat (v : U16) : u16OfNat v.toNat = v := by
  simp [u16OfNat]

@[simp] theorem u16Bytes_length (v : U16) : (u16Bytes v).length = 2 := rfl

@[simp] theorem countedBytes_length (s : Bytes) : (countedBytes s).length = s.length + 2 := by
  simp [countedBytes]; omega

@[simp] theorem headerBytes_length (len dest src : U16) (cmd : Byte) :
    (headerBytes len dest src cmd).length = 8 := rfl

@[simp] theorem wireBytes_length (len dest src : U16) (cmd : Byte) (tail : Bytes) :
    (wireBytes len dest src cmd tail).length = 8 + tail.length := by
  simp [wireBytes]

end Sys2Proof
end

