-- ==== Sys2Proof/Laws/Codec.lean ====
section
/-! SUPPORT. All the decoder can answer (41_codec.md rule R77), and the sizes of encoded frames. -/

namespace Sys2Proof.Machine

theorem decodeFrame_ok_iff {r : Bytes} {f : Frame} :
    decodeFrame r = .ok f ↔
      (sizeOk r ∧ delimitersOk r ∧ lengthOk r ∧ crcOk r) ∧ f = frameOf r := by
  unfold decodeFrame
  by_cases h1 : sizeOk r <;> by_cases h2 : delimitersOk r <;> by_cases h3 : lengthOk r <;>
    by_cases h4 : crcOk r <;> simp [h1, h2, h3, h4, eq_comm]

theorem decodeFrame_crcMismatch_iff {r : Bytes} :
    decodeFrame r = .error .crcMismatch ↔
      (sizeOk r ∧ delimitersOk r ∧ lengthOk r) ∧ crcOk r = false := by
  unfold decodeFrame
  by_cases h1 : sizeOk r <;> by_cases h2 : delimitersOk r <;> by_cases h3 : lengthOk r <;>
    by_cases h4 : crcOk r <;> simp [h1, h2, h3, h4]

theorem decodeFrame_malformed_iff {r : Bytes} :
    decodeFrame r = .error .malformedHeader ↔
      ¬ (sizeOk r ∧ delimitersOk r ∧ lengthOk r) := by
  unfold decodeFrame
  by_cases h1 : sizeOk r <;> by_cases h2 : delimitersOk r <;> by_cases h3 : lengthOk r <;>
    by_cases h4 : crcOk r <;> simp [h1, h2, h3, h4]

/-- A range that decodes is at least a smallest frame long, and its LEN field is its size. -/
theorem decodeFrame_ok_size {r : Bytes} {f : Frame} (h : decodeFrame r = .ok f) :
    11 ≤ r.length ∧ (lenField r).toNat = r.length := by
  obtain ⟨⟨h1, -, h3, -⟩, -⟩ := decodeFrame_ok_iff.mp h
  exact ⟨by simpa [sizeOk] using h1, by simpa [lengthOk] using h3⟩

@[simp] theorem encodeBody_length (dest src : U16) (cmd : Byte) (payload : Bytes) :
    (encodeBody dest src cmd payload).length = 8 + payload.length := by
  simp [encodeBody]

@[simp] theorem encodeFrame_length (dest src : U16) (cmd : Byte) (payload : Bytes) :
    (encodeFrame dest src cmd payload).length = 11 + payload.length := by
  simp [encodeFrame]
  omega

end Sys2Proof.Machine
end

