-- ==== Sys2Proof/Laws/Decode.lean ====
section
/-! SUPPORT. Reading back what the encoder writes, operand by operand (30_encoding.md rule R49), and
which wire row a header selects (rule R51). -/

namespace Sys2Proof

/-! ## Operands -/

@[simp] theorem takeByte_cons (b : Byte) (rest : Bytes) : takeByte (b :: rest) = some (b, rest) := rfl

@[simp] theorem takeU16_u16Bytes (v : U16) (rest : Bytes) :
    takeU16 (u16Bytes v ++ rest) = some (v, rest) := by
  simp [u16Bytes, takeU16]

@[simp] theorem takeCounted_countedBytes {s : Bytes} (h : s.length ≤ 65535) (rest : Bytes) :
    takeCounted (countedBytes s ++ rest) = some (s, rest) := by
  simp [takeCounted, countedBytes, u16OfNat_toNat h]

/-- What a 16-bit operand was read from. -/
theorem takeU16_some {bs rest : Bytes} {v : U16} (h : takeU16 bs = some (v, rest)) :
    bs = u16Bytes v ++ rest := by
  match bs, h with
  | b0 :: b1 :: r, h =>
    simp only [takeU16, Option.some.injEq, Prod.mk.injEq] at h
    simp [← h.1, ← h.2, u16Bytes]

/-- What a `Bytes` operand was read from, and that a count of 16 bits held it. -/
theorem takeCounted_some {bs s rest : Bytes} (h : takeCounted bs = some (s, rest)) :
    s.length ≤ 65535 ∧ bs = countedBytes s ++ rest := by
  unfold takeCounted at h
  cases hn : takeU16 bs with
  | none => simp [hn] at h
  | some p =>
    obtain ⟨n, r⟩ := p
    simp only [hn] at h
    split at h
    · rename_i hle
      simp only [Option.some.injEq, Prod.mk.injEq] at h
      have hl : s.length = n.toNat := by rw [← h.1]; simp [hle]
      refine ⟨by have := n.isLt; omega, ?_⟩
      rw [takeU16_some hn, countedBytes, hl, u16OfNat_of_toNat, List.append_assoc, ← h.1, ← h.2,
        List.take_append_drop]
    · cases h

/-! ## Wire rows -/

/-- Two concatenations of the same widths agree part by part. -/
theorem append_inj {n m : Nat} {a c : BitVec n} {b d : BitVec m} (h : a ++ b = c ++ d) :
    a = c ∧ b = d := by
  have h1 := congrArg BitVec.toNat h
  simp only [BitVec.toNat_append] at h1
  rw [← Nat.shiftLeft_add_eq_or_of_lt b.isLt, ← Nat.shiftLeft_add_eq_or_of_lt d.isLt] at h1
  simp only [Nat.shiftLeft_eq] at h1
  have hb := b.isLt
  have hd := d.isLt
  have h2 := congrArg (· / 2 ^ m) h1
  have h3 := congrArg (· % 2 ^ m) h1
  simp only [Nat.mul_add_mod_self_right, Nat.mod_eq_of_lt hb, Nat.mod_eq_of_lt hd] at h3
  rw [Nat.mul_comm, Nat.mul_comm c.toNat] at h2
  simp only [Nat.mul_add_div (Nat.two_pow_pos m), Nat.div_eq_of_lt hb, Nat.div_eq_of_lt hd] at h2
  exact ⟨BitVec.eq_of_toNat_eq (by omega), BitVec.eq_of_toNat_eq h3⟩

/-- A header masked is its bytes masked. -/
theorem headerWord_and (b0 b1 b2 b3 b4 b5 b6 b7 m0 m1 m2 m3 m4 m5 m6 m7 : Byte) :
    headerWord b0 b1 b2 b3 b4 b5 b6 b7 &&& headerWord m0 m1 m2 m3 m4 m5 m6 m7 =
      headerWord (b0 &&& m0) (b1 &&& m1) (b2 &&& m2) (b3 &&& m3) (b4 &&& m4) (b5 &&& m5)
        (b6 &&& m6) (b7 &&& m7) :=
  BitVec.and_append.trans (congrArg _ (BitVec.and_append.trans (congrArg _
    (BitVec.and_append.trans (congrArg _ (BitVec.and_append.trans (congrArg _
    (BitVec.and_append.trans (congrArg _
    (BitVec.and_append.trans (congrArg _ BitVec.and_append)))))))))))

/-- Equal headers agree at offsets 0 and 7. -/
theorem headerWord_inj {b0 b1 b2 b3 b4 b5 b6 b7 c0 c1 c2 c3 c4 c5 c6 c7 : Byte}
    (h : headerWord b0 b1 b2 b3 b4 b5 b6 b7 = headerWord c0 c1 c2 c3 c4 c5 c6 c7) :
    b0 = c0 ∧ b7 = c7 := by
  have h1 := append_inj (n := 8) (m := 56) h
  have h2 := append_inj (n := 8) (m := 48) h1.2
  have h3 := append_inj (n := 8) (m := 40) h2.2
  have h4 := append_inj (n := 8) (m := 32) h3.2
  have h5 := append_inj (n := 8) (m := 24) h4.2
  have h6 := append_inj (n := 8) (m := 16) h5.2
  have h7 := append_inj (n := 8) (m := 8) h6.2
  exact ⟨h1.1, h7.2⟩

/-- The mask of the four function codes looks at offsets 0 and 7 only. -/
theorem headerWord_cmdMask (b0 l0 l1 d0 d1 s0 s1 c k : Byte) :
    headerWord b0 l0 l1 d0 d1 s0 s1 c &&& 0xFF000000000000FF#64 =
      headerWord START 0#8 0#8 0#8 0#8 0#8 0#8 k ↔ b0 = START ∧ c = k := by
  have ff : ∀ b : Byte, b &&& 0xFF#8 = b := fun b => BitVec.and_allOnes
  rw [show 0xFF000000000000FF#64 = headerWord 0xFF#8 0#8 0#8 0#8 0#8 0#8 0#8 0xFF#8 from by decide,
    headerWord_and, ff, ff]
  simp only [BitVec.and_zero]
  exact ⟨headerWord_inj, fun h => by rw [h.1, h.2]⟩

/-- The mask of the row FRAME looks at offset 0 only. -/
theorem headerWord_startMask (b0 l0 l1 d0 d1 s0 s1 c : Byte) :
    headerWord b0 l0 l1 d0 d1 s0 s1 c &&& 0xFF00000000000000#64 =
      headerWord START 0#8 0#8 0#8 0#8 0#8 0#8 0#8 ↔ b0 = START := by
  have ff : ∀ b : Byte, b &&& 0xFF#8 = b := fun b => BitVec.and_allOnes
  rw [show 0xFF00000000000000#64 = headerWord 0xFF#8 0#8 0#8 0#8 0#8 0#8 0#8 0x00#8 from by decide,
    headerWord_and, ff]
  simp only [BitVec.and_zero]
  exact ⟨fun h => (headerWord_inj h).1, fun h => by rw [h]⟩

/-- The row of a header that begins with START, by its CMD byte. -/
theorem selectWire_of_start (l0 l1 d0 d1 s0 s1 c : Byte) :
    selectWire (headerWord START l0 l1 d0 d1 s0 s1 c) =
      some (if c = CMD_READ_REQ then .readReq else if c = CMD_READ_RESP then .readResp
        else if c = CMD_WRITE_REQ then .writeReq else if c = CMD_PING then .ping else .frame) := by
  have key : ∀ k : Byte, (headerWord START l0 l1 d0 d1 s0 s1 c &&& 0xFF000000000000FF#64 ==
      headerWord START 0#8 0#8 0#8 0#8 0#8 0#8 k) = (c == k) := fun k => by
    rw [Bool.eq_iff_iff, beq_iff_eq, beq_iff_eq, headerWord_cmdMask]
    simp
  have any : (headerWord START l0 l1 d0 d1 s0 s1 c &&& 0xFF00000000000000#64 ==
      headerWord START 0#8 0#8 0#8 0#8 0#8 0#8 0#8) = true := by
    rw [beq_iff_eq, headerWord_startMask]
  have e1 := key CMD_READ_REQ
  have e2 := key CMD_READ_RESP
  have e3 := key CMD_WRITE_REQ
  have e4 := key CMD_PING
  rw [show headerWord START 0#8 0#8 0#8 0#8 0#8 0#8 CMD_READ_REQ = 0x6800000000000002#64
    from by decide] at e1
  rw [show headerWord START 0#8 0#8 0#8 0#8 0#8 0#8 CMD_READ_RESP = 0x6800000000000082#64
    from by decide] at e2
  rw [show headerWord START 0#8 0#8 0#8 0#8 0#8 0#8 CMD_WRITE_REQ = 0x6800000000000003#64
    from by decide] at e3
  rw [show headerWord START 0#8 0#8 0#8 0#8 0#8 0#8 CMD_PING = 0x6800000000000009#64
    from by decide] at e4
  rw [show headerWord START 0#8 0#8 0#8 0#8 0#8 0#8 0#8 = 0x6800000000000000#64
    from by decide] at any
  simp only [selectWire, wireTable, List.find?, WireRow.selects, e1, e2, e3, e4, any]
  by_cases h1 : c = CMD_READ_REQ
  · subst h1; rfl
  by_cases h2 : c = CMD_READ_RESP
  · subst h2; rfl
  by_cases h3 : c = CMD_WRITE_REQ
  · subst h3; rfl
  by_cases h4 : c = CMD_PING
  · subst h4; rfl
  simp [beq_false_of_ne, h1, h2, h3, h4]

/-- A whole candidate and what follows it: the header's row, the fields, and the tail. -/
theorem wireFrame_wireBytes {len dest src : U16} {cmd : Byte} {tail : Bytes}
    (h : tail.length = len.toNat - 8) (rest : Bytes) {k : WireKind}
    (hk : selectWire (headerWord START (lo8 len) (hi8 len) (lo8 dest) (hi8 dest) (lo8 src)
      (hi8 src) cmd) = some k) :
    wireFrame (wireBytes len dest src cmd tail ++ rest) =
      some (k.instr len dest src cmd tail, rest) := by
  simp [wireFrame, wireBytes, headerBytes, u16Bytes, hk, ← h]

end Sys2Proof
end

