-- ==== Sys2Proof/Laws/Dispatch.lean ====
section
/-! SUPPORT. What each instruction does, as one equation on `exec` (what an arm calls, unfolded once),
and what a step does with each kind of event. -/

namespace Sys2Proof.Machine

@[simp] theorem exec_crcClr (s : State) : exec .crcClr s = .next (s.setCrcReg 0x0000#16) := rfl

@[simp] theorem exec_crcUpd (b : Byte) (s : State) :
    exec (.crcUpd b) s = .next (s.setCrcReg (crcByte s.crcReg b)) := rfl

@[simp] theorem exec_crcRd (s : State) :
    exec .crcRd s = .next (s.returning (.u16 s.crcReg)) := rfl

@[simp] theorem exec_crcCompute (bs : Bytes) (s : State) :
    exec (.crcCompute bs) s = .next (s.returning (.u16 (crc16 bs))) := rfl

@[simp] theorem exec_crcVerify (bs : Bytes) (e : U16) (s : State) :
    exec (.crcVerify bs e) s = .next (s.returning (.bool (crc16 bs == e))) := rfl

theorem exec_encReq (dest src : U16) (cmd : Byte) (payload : Bytes) (s : State) :
    exec (.encReq dest src cmd payload) s =
      if s.config.maxLen < 11 + payload.length then .refused .payloadTooLong
      else .next (s.returning (.bytes (encodeFrame dest src cmd payload))) := rfl

@[simp] theorem exec_decFrame (r : Bytes) (s : State) :
    exec (.decFrame r) s = .next (s.returning (decodeResult r)) := rfl

theorem exec_frmPush (b : Byte) (s : State) :
    exec (.frmPush b) s = framerOutcome s (pushByte s.config b s.frm) := rfl

@[simp] theorem exec_frmRst (s : State) : exec .frmRst s = .next (s.setFrm Framer.reset) := rfl

theorem exec_frmFeed (bs : Bytes) (s : State) :
    exec (.frmFeed bs) s = framerOutcome s (feedBytes s.config bs s.frm) := rfl

/-- The five wire rows are FRM.FEED of their wire form. Notes: assumption 5. -/
theorem exec_readReq (len dest src : U16) (tail : Bytes) (s : State) :
    exec (.readReq len dest src tail) s =
      exec (.frmFeed (wireBytes len dest src CMD_READ_REQ tail)) s := rfl

theorem exec_readResp (len dest src : U16) (tail : Bytes) (s : State) :
    exec (.readResp len dest src tail) s =
      exec (.frmFeed (wireBytes len dest src CMD_READ_RESP tail)) s := rfl

theorem exec_writeReq (len dest src : U16) (tail : Bytes) (s : State) :
    exec (.writeReq len dest src tail) s =
      exec (.frmFeed (wireBytes len dest src CMD_WRITE_REQ tail)) s := rfl

theorem exec_ping (len dest src : U16) (tail : Bytes) (s : State) :
    exec (.ping len dest src tail) s =
      exec (.frmFeed (wireBytes len dest src CMD_PING tail)) s := rfl

theorem exec_frame (len dest src : U16) (cmd : Byte) (tail : Bytes) (s : State) :
    exec (.frame len dest src cmd tail) s =
      exec (.frmFeed (wireBytes len dest src cmd tail)) s := rfl

/-! ## Outcomes of the framer's operations -/

@[simp] theorem framerOutcome_ok (s : State) (f : Framer) (trace : List StepResult) :
    framerOutcome s (.ok (f, trace)) =
      .next ((s.setFrm f).returning (framerResult s.config trace)) := rfl

@[simp] theorem framerOutcome_error (s : State) (e : Fault) :
    framerOutcome s (.error e) = .fault e := rfl

/-- A framer operation that answers a next state wrote the framer and returned one result. -/
theorem framerOutcome_next {s t : State} {r : Except Fault (Framer × List StepResult)}
    (h : framerOutcome s r = .next t) :
    ∃ f trace, r = .ok (f, trace) ∧ t = (s.setFrm f).returning (framerResult s.config trace) := by
  match r, h with
  | .ok (f, trace), h => exact ⟨f, trace, rfl, by simpa using h.symm⟩

/-! ## Steps -/

theorem step_of_fetch_run {s : State} {i : Instr} {rest : List HostEvent}
    (h : fetch s = .run i rest) : step s = exec i (s.setInput rest) := by
  simp [step, h]

theorem step_of_fetch_reset {s : State} {rest : List HostEvent} (h : fetch s = .reset rest) :
    step s = .next (s.setInput rest).applyReset := by
  simp [step, h]

/-- A transaction is run whole, whatever the length of its operands (rule R21). -/
theorem step_transaction {s : State} {t : Transaction} {rest : List HostEvent}
    (h : s.input = .offer (.transaction t) :: rest) : step s = exec t.instr (s.setInput rest) :=
  step_of_fetch_run (by simp [fetch, h, itemSpent, decode, pending])

/-- All a step can do, by what is fetched. -/
theorem step_next_cases {s t : State} (h : step s = .next t) :
    t = s ∨ (∃ rest, t = s.setInput rest) ∨ (∃ rest, t = (s.setInput rest).applyReset) ∨
      ∃ i rest, fetch s = .run i rest ∧ exec i (s.setInput rest) = .next t := by
  unfold step at h
  split at h
  · exact .inl (by simpa using h.symm)
  · rename_i rest _
    exact .inr (.inl ⟨rest, by simpa using h.symm⟩)
  · rename_i rest _
    exact .inr (.inr (.inl ⟨rest, by simpa using h.symm⟩))
  · rename_i i rest hf
    exact .inr (.inr (.inr ⟨i, rest, hf, h⟩))
  · cases h

end Sys2Proof.Machine
end

