-- ==== Sys2Proof/Laws/Ops.lean ====
section
/-! SUPPORT. One lemma per shared operation that says all it can do: the buffer primitives
(20_memory.md rule R31), the resynchronisation (60_exceptions.md rule R122) and the search for a START
byte (42_framer.md rule R91). -/

namespace Sys2Proof.Machine

/-! ## Buffer primitives -/

theorem bufAppend_ok_iff {cap : Nat} {b : Byte} {f g : Framer} :
    bufAppend cap b f = .ok g ↔ f.buf.length < cap ∧ g = { f with buf := f.buf ++ [b] } := by
  unfold bufAppend
  split <;> simp_all [eq_comm]

theorem bufAppend_of_room {cap : Nat} {b : Byte} {f : Framer} (h : f.buf.length < cap) :
    bufAppend cap b f = .ok { f with buf := f.buf ++ [b] } := by
  simp [bufAppend, h]

theorem bufDrop_ok_iff {k : Nat} {f g : Framer} :
    bufDrop k f = .ok g ↔ k ≤ f.buf.length ∧ g = { f with buf := f.buf.drop k } := by
  unfold bufDrop
  split <;> simp_all [eq_comm]

theorem bufDrop_of_le {k : Nat} {f : Framer} (h : k ≤ f.buf.length) :
    bufDrop k f = .ok { f with buf := f.buf.drop k } := by
  simp [bufDrop, h]

theorem bufHead_ok_iff {n : Nat} {f : Framer} {r : Bytes} :
    bufHead n f = .ok r ↔ n ≤ f.buf.length ∧ r = f.buf.take n := by
  unfold bufHead slice
  split <;> simp_all [eq_comm]

theorem bufHead_of_le {n : Nat} {f : Framer} (h : n ≤ f.buf.length) :
    bufHead n f = .ok (f.buf.take n) := by
  simp [bufHead, h, slice]

theorem resync_ok_iff {k : FrameError} {f g : Framer} {r : StepResult} :
    resync k f = .ok (g, r) ↔
      1 ≤ f.buf.length ∧ g = { f with buf := f.buf.drop 1, phase := .seekStart } ∧
        r = .resync k := by
  unfold resync
  by_cases h : 1 ≤ f.buf.length
  · simp [bufDrop_of_le h, h, eq_comm]
  · simp [bufDrop, h]

/-! ## The search for START -/

theorem startIndex_some {bs : Bytes} {i : Nat} (h : startIndex bs = some i) :
    i < bs.length ∧ bs.getD i 0#8 = START ∧ ∀ j < i, bs.getD j 0#8 ≠ START := by
  induction bs generalizing i with
  | nil => cases h
  | cons b rest ih =>
    simp only [startIndex] at h
    split at h
    · cases h
      simp_all
    · rename_i hb
      obtain ⟨k, hk, rfl⟩ := Option.map_eq_some_iff.mp h
      obtain ⟨h1, h2, h3⟩ := ih hk
      refine ⟨by simpa using h1, by simpa using h2, fun j hj => ?_⟩
      cases j with
      | zero => simpa using hb
      | succ j => simpa using h3 j (by omega)

theorem startIndex_none {bs : Bytes} : startIndex bs = none ↔ ∀ b ∈ bs, b ≠ START := by
  induction bs with
  | nil => simp [startIndex]
  | cons b rest ih =>
    by_cases hb : b = START
    · simp [startIndex, hb]
    · simp only [startIndex, hb, if_false, Option.map_eq_none_iff, ih, List.mem_cons]
      simp [hb]

/-- A START byte after bytes none of which is one is found where it stands. -/
theorem startIndex_append {gap rest : Bytes} (h : ∀ b ∈ gap, b ≠ START) :
    startIndex (gap ++ START :: rest) = some gap.length := by
  induction gap with
  | nil => simp [startIndex]
  | cons b gap ih =>
    have hb : b ≠ START := h b (by simp)
    simp [startIndex, hb, ih (fun x hx => h x (by simp [hx]))]

end Sys2Proof.Machine
end

