-- ==== Sys2Proof/Laws/State.lean ====
section
/-! SUPPORT. One lemma per field per update of the state, so that no later proof unfolds a record
update. -/

namespace Sys2Proof.Machine.State

@[simp] theorem setCrcReg_crcReg (s : State) (v : U16) : (s.setCrcReg v).crcReg = v := rfl
@[simp] theorem setCrcReg_frm (s : State) (v : U16) : (s.setCrcReg v).frm = s.frm := rfl
@[simp] theorem setCrcReg_config (s : State) (v : U16) : (s.setCrcReg v).config = s.config := rfl
@[simp] theorem setCrcReg_input (s : State) (v : U16) : (s.setCrcReg v).input = s.input := rfl
@[simp] theorem setCrcReg_results (s : State) (v : U16) : (s.setCrcReg v).results = s.results := rfl

@[simp] theorem setFrm_crcReg (s : State) (f : Framer) : (s.setFrm f).crcReg = s.crcReg := rfl
@[simp] theorem setFrm_frm (s : State) (f : Framer) : (s.setFrm f).frm = f := rfl
@[simp] theorem setFrm_config (s : State) (f : Framer) : (s.setFrm f).config = s.config := rfl
@[simp] theorem setFrm_input (s : State) (f : Framer) : (s.setFrm f).input = s.input := rfl
@[simp] theorem setFrm_results (s : State) (f : Framer) : (s.setFrm f).results = s.results := rfl

@[simp] theorem setInput_crcReg (s : State) (l : List HostEvent) : (s.setInput l).crcReg = s.crcReg := rfl
@[simp] theorem setInput_frm (s : State) (l : List HostEvent) : (s.setInput l).frm = s.frm := rfl
@[simp] theorem setInput_config (s : State) (l : List HostEvent) : (s.setInput l).config = s.config := rfl
@[simp] theorem setInput_input (s : State) (l : List HostEvent) : (s.setInput l).input = l := rfl
@[simp] theorem setInput_results (s : State) (l : List HostEvent) : (s.setInput l).results = s.results := rfl

@[simp] theorem returning_crcReg (s : State) (r : Result) : (s.returning r).crcReg = s.crcReg := rfl
@[simp] theorem returning_frm (s : State) (r : Result) : (s.returning r).frm = s.frm := rfl
@[simp] theorem returning_config (s : State) (r : Result) : (s.returning r).config = s.config := rfl
@[simp] theorem returning_input (s : State) (r : Result) : (s.returning r).input = s.input := rfl
@[simp] theorem returning_results (s : State) (r : Result) : (s.returning r).results = s.results ++ [r] := rfl

@[simp] theorem applyReset_crcReg (s : State) : s.applyReset.crcReg = 0x0000#16 := rfl
@[simp] theorem applyReset_frm (s : State) : s.applyReset.frm = Framer.reset := rfl
@[simp] theorem applyReset_config (s : State) : s.applyReset.config = s.config := rfl
@[simp] theorem applyReset_input (s : State) : s.applyReset.input = s.input := rfl
@[simp] theorem applyReset_results (s : State) : s.applyReset.results = s.results := rfl

@[simp] theorem resetWith_crcReg (c : Config) : (State.resetWith c).crcReg = 0x0000#16 := rfl
@[simp] theorem resetWith_frm (c : Config) : (State.resetWith c).frm = Framer.reset := rfl
@[simp] theorem resetWith_config (c : Config) : (State.resetWith c).config = c := rfl
@[simp] theorem resetWith_input (c : Config) : (State.resetWith c).input = [] := rfl
@[simp] theorem resetWith_results (c : Config) : (State.resetWith c).results = [] := rfl

end Sys2Proof.Machine.State
end

