-- ==== Sys2Proof/Laws/Framer.lean ====
section
/-! SUPPORT. What an internal step can do, said once (42_framer.md rules R91 to R94, R99), and what
follows of it: the invariant inside a push (10_state.md rule R15), termination (rule R97), and that a
push from a quiescent framer is answered and leaves it quiescent (rules R95, R98, R100). -/

namespace Sys2Proof.Machine

/-! ## One internal step -/

/-- All that an internal step can do: the rows of the transition table of rule R99. -/
theorem internalStep_cases {m : Nat} {f g : Framer} {r : StepResult}
    (h : internalStep m f = .ok (g, r)) :
    (f.phase = .seekStart ∧ ∃ i, startIndex f.buf = some i ∧
      g = { f with buf := f.buf.drop i, phase := .readLength } ∧ r = .progress) ∨
    (f.phase = .seekStart ∧ startIndex f.buf = none ∧ g = { f with buf := [] } ∧ r = .wait) ∨
    (f.phase = .readLength ∧ f.buf.length < 3 ∧ g = f ∧ r = .wait) ∨
    (f.phase = .readLength ∧ 3 ≤ f.buf.length ∧ lengthInRange m (lenField f.buf) = false ∧
      g = { f with buf := f.buf.drop 1, phase := .seekStart } ∧ r = .resync .malformedHeader) ∨
    (f.phase = .readLength ∧ 3 ≤ f.buf.length ∧ lengthInRange m (lenField f.buf) = true ∧
      g = { f with flen := lenField f.buf, phase := .accumulateBody } ∧ r = .progress) ∨
    (f.phase = .accumulateBody ∧ f.buf.length < f.flen.toNat ∧ g = f ∧ r = .wait) ∨
    (f.phase = .accumulateBody ∧ f.flen.toNat ≤ f.buf.length ∧
      g = { f with phase := .emitOrResync } ∧ r = .progress) ∨
    (f.phase = .emitOrResync ∧ f.flen.toNat ≤ f.buf.length ∧
      ∃ fr, decodeFrame (f.buf.take f.flen.toNat) = .ok fr ∧
        g = { f with buf := f.buf.drop f.flen.toNat, phase := .seekStart } ∧ r = .emit fr) ∨
    (f.phase = .emitOrResync ∧ f.flen.toNat ≤ f.buf.length ∧ 1 ≤ f.buf.length ∧
      ∃ k, decodeFrame (f.buf.take f.flen.toNat) = .error k ∧
        g = { f with buf := f.buf.drop 1, phase := .seekStart } ∧ r = .resync k) := by
  unfold internalStep at h
  cases hp : f.phase <;> simp only [hp] at h
  case seekStart =>
    unfold seekStartStep at h
    cases hi : startIndex f.buf with
    | none =>
      simp only [hi, Except.ok.injEq, Prod.mk.injEq] at h
      simp [h.1.symm, h.2.symm, bufClear, hp]
    | some i =>
      have hl : i ≤ f.buf.length := Nat.le_of_lt (startIndex_some hi).1
      simp only [hi, bufDrop_of_le hl, Except.ok.injEq, Prod.mk.injEq] at h
      simp [h.1.symm, h.2.symm]
  case readLength =>
    unfold readLengthStep at h
    split at h
    · rename_i hl
      simp only [Except.ok.injEq, Prod.mk.injEq] at h
      simp [h.1.symm, h.2.symm, hl]
    · rename_i hl
      split at h
      · rename_i hr
        simp only [Except.ok.injEq, Prod.mk.injEq] at h
        simp [h.1.symm, h.2.symm, hr, Nat.le_of_not_lt hl]
      · rename_i hr
        obtain ⟨-, rfl, rfl⟩ := resync_ok_iff.mp h
        simp [hr, Nat.le_of_not_lt hl]
  case accumulateBody =>
    unfold accumulateBodyStep at h
    split at h
    · rename_i hl
      simp only [Except.ok.injEq, Prod.mk.injEq] at h
      simp [h.1.symm, h.2.symm, hl]
    · rename_i hl
      simp only [Except.ok.injEq, Prod.mk.injEq] at h
      simp [h.1.symm, h.2.symm, Nat.le_of_not_lt hl]
  case emitOrResync =>
    unfold emitOrResyncStep at h
    by_cases hl : f.flen.toNat ≤ f.buf.length
    · rw [bufHead_of_le hl] at h
      simp only at h
      cases hd : decodeFrame (f.buf.take f.flen.toNat) with
      | ok fr =>
        simp only [hd, bufDrop_of_le hl, Except.ok.injEq, Prod.mk.injEq] at h
        simp [h.1.symm, h.2.symm, hl]
      | error k =>
        simp only [hd] at h
        obtain ⟨h1, rfl, rfl⟩ := resync_ok_iff.mp h
        simp [hl]
        exact h1
    · simp [bufHead, hl] at h

theorem getD_take {bs : Bytes} {n i : Nat} (h : i < n) : (bs.take n).getD i 0#8 = bs.getD i 0#8 := by
  simp [List.getD_eq_getElem?_getD, h]

theorem lengthInRange_iff {m : Nat} {len : U16} :
    lengthInRange m len = true ↔ 11 ≤ len.toNat ∧ len.toNat ≤ m := by
  simp [lengthInRange]

theorem getD_drop {bs : Bytes} {n i : Nat} : (bs.drop n).getD i 0#8 = bs.getD (n + i) 0#8 := by
  simp [List.getD_eq_getElem?_getD, List.getElem?_drop]

/-- The invariant inside a push is kept, and where the step waits the framer is quiescent
(rule R15). -/
theorem midPush_step {m : Nat} {f g : Framer} {r : StepResult} (hf : MidPush m f)
    (h : internalStep m f = .ok (g, r)) :
    MidPush m g ∧ (r = .wait → Quiescent m g) := by
  obtain ⟨hl, hp⟩ := hf
  rcases internalStep_cases h with
    ⟨ph, i, hi, rfl, rfl⟩ | ⟨ph, hi, rfl, rfl⟩ | ⟨ph, h3, rfl, rfl⟩ | ⟨ph, h3, -, rfl, rfl⟩ |
    ⟨ph, h3, hr, rfl, rfl⟩ | ⟨ph, h3, rfl, rfl⟩ | ⟨ph, h3, rfl, rfl⟩ |
    ⟨ph, h3, fr, hd, rfl, rfl⟩ | ⟨ph, h3, h1, k, hd, rfl, rfl⟩
  · obtain ⟨h1, h2, -⟩ := startIndex_some hi
    refine ⟨⟨by simp; omega, ?_⟩, by simp⟩
    simp only [List.length_drop, getD_drop, Nat.add_zero]
    exact ⟨by omega, h2⟩
  · simp [MidPush, Quiescent, ph]
  · simp only [ph] at hp
    refine ⟨⟨hl, by simpa [ph] using hp⟩, fun _ => ?_⟩
    simp only [Quiescent, ph]
    exact ⟨hp.1, by omega, hp.2⟩
  · exact ⟨⟨by simp; omega, by simp⟩, by simp⟩
  · simp only [ph] at hp
    obtain ⟨h4, h5⟩ := lengthInRange_iff.mp hr
    exact ⟨⟨hl, h3, hp.2, rfl, h4, h5⟩, by simp⟩
  · simp only [ph] at hp
    refine ⟨⟨hl, by simpa [ph] using hp⟩, fun _ => ?_⟩
    simp only [Quiescent, ph]
    exact ⟨hp.1, h3, hp.2.1, hp.2.2.1, hp.2.2.2.1, hp.2.2.2.2⟩
  · simp only [ph] at hp
    exact ⟨⟨hl, by simpa [h3] using ⟨hp.1, hp.2.1, hp.2.2.1, hp.2.2.2.1⟩⟩, by simp⟩
  · exact ⟨⟨by simp; omega, by simp⟩, by simp⟩
  · exact ⟨⟨by simp; omega, by simp⟩, by simp⟩

/-- Inside a push a step is always answered. -/
theorem midPush_step_ok {m : Nat} {f : Framer} (hf : MidPush m f) :
    ∃ g r, internalStep m f = .ok (g, r) := by
  obtain ⟨hl, hp⟩ := hf
  unfold internalStep
  cases ph : f.phase <;> simp only [ph] at hp ⊢
  case seekStart =>
    unfold seekStartStep
    cases hi : startIndex f.buf with
    | none => exact ⟨_, _, rfl⟩
    | some i => simp [bufDrop_of_le (Nat.le_of_lt (startIndex_some hi).1)]
  case readLength =>
    unfold readLengthStep
    split
    · exact ⟨_, _, rfl⟩
    · split
      · exact ⟨_, _, rfl⟩
      · exact ⟨_, _, resync_ok_iff.mpr ⟨by omega, rfl, rfl⟩⟩
  case accumulateBody =>
    unfold accumulateBodyStep
    split <;> exact ⟨_, _, rfl⟩
  case emitOrResync =>
    unfold emitOrResyncStep
    rw [bufHead_of_le hp.2.2.2.2]
    simp only
    cases decodeFrame (f.buf.take f.flen.toNat) with
    | ok fr => simp [bufDrop_of_le hp.2.2.2.2]
    | error k => exact ⟨_, _, resync_ok_iff.mpr ⟨by omega, rfl, rfl⟩⟩

/-- The measure of rule R97 as one number. -/
def stepMeasure (f : Framer) : Nat := 4 * f.buf.length + (3 - f.phase.code)

/-- A step that does not wait makes the measure smaller (rule R97). -/
theorem stepMeasure_lt {m : Nat} {f g : Framer} {r : StepResult}
    (h : internalStep m f = .ok (g, r)) (hr : r ≠ .wait) : stepMeasure g < stepMeasure f := by
  rcases internalStep_cases h with
    ⟨ph, i, hi, rfl, rfl⟩ | ⟨ph, hi, rfl, rfl⟩ | ⟨ph, h3, rfl, rfl⟩ | ⟨ph, h3, -, rfl, rfl⟩ |
    ⟨ph, h3, -, rfl, rfl⟩ | ⟨ph, h3, rfl, rfl⟩ | ⟨ph, h3, rfl, rfl⟩ |
    ⟨ph, h3, fr, hd, rfl, rfl⟩ | ⟨ph, h3, h1, k, hd, rfl, rfl⟩
  · simp only [stepMeasure, ph, Phase.code, List.length_drop]
    omega
  · exact absurd rfl hr
  · exact absurd rfl hr
  · simp [stepMeasure, ph, Phase.code]; omega
  · simp [stepMeasure, ph, Phase.code]
  · exact absurd rfl hr
  · simp [stepMeasure, ph, Phase.code]
  · have := (decodeFrame_ok_size hd).1
    simp only [List.length_take] at this
    simp [stepMeasure, ph, Phase.code]; omega
  · simp [stepMeasure, ph, Phase.code]; omega

/-! ## The loop -/

@[simp] theorem before_ok (trace more : List StepResult) (f : Framer) :
    before trace (.ok (f, more)) = .ok (f, trace ++ more) := rfl

@[simp] theorem before_error (trace : List StepResult) (e : Fault) :
    before trace (.error e) = .error e := rfl

theorem before_ok_iff {trace full : List StepResult} {f : Framer}
    {r : Except Fault (Framer × List StepResult)} :
    before trace r = .ok (f, full) ↔ ∃ more, r = .ok (f, more) ∧ full = trace ++ more := by
  match r with
  | .error e => simp
  | .ok (g, more) => simp [eq_comm]

theorem runSteps_succ {m fuel : Nat} {f g : Framer} {r : StepResult}
    (h : internalStep m f = .ok (g, r)) (hr : r ≠ .wait) :
    runSteps m (fuel + 1) f = before [r] (runSteps m fuel g) := by
  cases r <;> simp_all [runSteps]

theorem runSteps_wait {m fuel : Nat} {f g : Framer} (h : internalStep m f = .ok (g, .wait)) :
    runSteps m (fuel + 1) f = .ok (g, [.wait]) := by
  simp [runSteps, h]

/-- From a framer that meets the invariant inside a push, enough steps reach a wait, and the framer is
then quiescent. -/
theorem runSteps_midPush {m : Nat} {fuel : Nat} {f : Framer} (hf : MidPush m f)
    (hfuel : stepMeasure f < fuel) :
    ∃ g trace, runSteps m fuel f = .ok (g, trace) ∧ RunsUntilWait m f trace g ∧
      Quiescent m g := by
  induction fuel generalizing f with
  | zero => omega
  | succ fuel ih =>
    obtain ⟨g, r, h⟩ := midPush_step_ok hf
    obtain ⟨hg, hw⟩ := midPush_step hf h
    by_cases hr : r = .wait
    · subst hr
      exact ⟨g, _, runSteps_wait h, .waits h, hw rfl⟩
    · have hlt := stepMeasure_lt h hr
      obtain ⟨k, trace, h1, h2, h3⟩ := ih hg (by omega)
      exact ⟨k, r :: trace, by rw [runSteps_succ h hr, h1]; rfl, .goesOn h hr h2, h3⟩

/-- The steps that a push makes are the run of rule R95, whatever the framer. -/
theorem runsUntilWait_of_runSteps {m : Nat} {fuel : Nat} {f g : Framer} {trace : List StepResult}
    (h : runSteps m fuel f = .ok (g, trace)) : RunsUntilWait m f trace g := by
  induction fuel generalizing f trace with
  | zero => simp [runSteps] at h
  | succ fuel ih =>
    cases hs : internalStep m f with
    | error e => simp [runSteps, hs] at h
    | ok p =>
      obtain ⟨k, r⟩ := p
      by_cases hr : r = .wait
      · subst hr
        rw [runSteps_wait hs] at h
        cases h
        exact .waits hs
      · rw [runSteps_succ hs hr] at h
        obtain ⟨more, hk, rfl⟩ := before_ok_iff.mp h
        exact .goesOn hs hr (ih hk)

/-! ## Quiescent framers -/

/-- A quiescent framer has room for a byte (rule R100). -/
theorem quiescent_length {c : Config} {f : Framer} (h : Quiescent c.maxLen f) :
    f.buf.length < c.maxLen := by
  have := c.minLen_le
  unfold Quiescent at h
  cases hp : f.phase <;> simp only [hp] at h
  · simp [h]; omega
  · omega
  · omega

theorem getD_append_left {bs : Bytes} {b : Byte} {i : Nat} (h : i < bs.length) :
    (bs ++ [b]).getD i 0#8 = bs.getD i 0#8 := by
  simp [List.getD_eq_getElem?_getD, List.getElem?_append_left h]

/-- Appending a byte to a quiescent framer meets the invariant inside a push. -/
theorem midPush_append {c : Config} {f : Framer} {b : Byte} (h : Quiescent c.maxLen f) :
    MidPush c.maxLen { f with buf := f.buf ++ [b] } := by
  have hl := quiescent_length h
  refine ⟨by simp; omega, ?_⟩
  unfold Quiescent at h
  cases hp : f.phase <;> simp only [hp] at h ⊢
  · refine ⟨by simp, ?_⟩
    rw [getD_append_left (by omega)]
    exact h.2.2
  · obtain ⟨h1, h2, h3, h4, h5⟩ := h
    rw [getD_append_left (by omega), getD_append_left (by omega), getD_append_left (by omega)]
    exact ⟨by simp; omega, h3, h4, h5⟩

/-- A push from a quiescent framer is answered, and leaves it quiescent (rules R95, R98). -/
theorem pushByte_quiescent {c : Config} {f : Framer} (b : Byte) (h : Quiescent c.maxLen f) :
    ∃ g trace, pushByte c b f = .ok (g, trace) ∧
      RunsUntilWait c.maxLen { f with buf := f.buf ++ [b] } trace g ∧ Quiescent c.maxLen g := by
  have hroom : f.buf.length < c.bufCap := quiescent_length h
  obtain ⟨g, trace, h1, h2, h3⟩ := runSteps_midPush (midPush_append (b := b) h)
    (fuel := stepBound (f.buf ++ [b]).length) (by simp [stepMeasure, stepBound]; omega)
  exact ⟨g, trace, by simpa [pushByte, bufAppend_of_room hroom] using h1, h2, h3⟩

/-- The same of a chunk (rule R96). -/
theorem feedBytes_quiescent {c : Config} {f : Framer} (bs : Bytes) (h : Quiescent c.maxLen f) :
    ∃ g trace, feedBytes c bs f = .ok (g, trace) ∧ Quiescent c.maxLen g := by
  induction bs generalizing f with
  | nil => exact ⟨f, [], rfl, h⟩
  | cons b rest ih =>
    obtain ⟨g, trace, h1, -, h2⟩ := pushByte_quiescent b h
    obtain ⟨k, more, h3, h4⟩ := ih h2
    exact ⟨k, trace ++ more, by simp [feedBytes, h1, h3], h4⟩

theorem feedBytes_cons {c : Config} {b : Byte} {rest : Bytes} {f g k : Framer}
    {trace more : List StepResult} (h1 : pushByte c b f = .ok (g, trace))
    (h2 : feedBytes c rest g = .ok (k, more)) :
    feedBytes c (b :: rest) f = .ok (k, trace ++ more) := by
  simp [feedBytes, h1, h2]

/-- A chunk cut in two is the two chunks one after the other (rule R96). -/
theorem feedBytes_append {c : Config} {s t : Bytes} {f g k : Framer}
    {trace more : List StepResult} (h1 : feedBytes c s f = .ok (g, trace))
    (h2 : feedBytes c t g = .ok (k, more)) :
    feedBytes c (s ++ t) f = .ok (k, trace ++ more) := by
  induction s generalizing f trace with
  | nil =>
    simp only [feedBytes, Except.ok.injEq, Prod.mk.injEq] at h1
    obtain ⟨rfl, rfl⟩ := h1
    simpa using h2
  | cons b rest ih =>
    simp only [feedBytes] at h1
    cases hp : pushByte c b f with
    | error e => simp [hp] at h1
    | ok p =>
      obtain ⟨q, tr⟩ := p
      simp only [hp] at h1
      obtain ⟨tr2, hq, rfl⟩ := before_ok_iff.mp h1
      simpa [List.append_assoc] using feedBytes_cons hp (ih hq)

/-! ## Output of step results -/

@[simp] theorem framesOf_append (s t : List StepResult) :
    framesOf (s ++ t) = framesOf s ++ framesOf t := by
  induction s with
  | nil => rfl
  | cons r s ih => cases r <;> simp [framesOf, ih]

@[simp] theorem diagsOf_append (s t : List StepResult) :
    diagsOf (s ++ t) = diagsOf s ++ diagsOf t := by
  induction s with
  | nil => rfl
  | cons r s ih => cases r <;> simp [diagsOf, ih]

/-- A reset framer is quiescent. -/
theorem quiescent_reset (m : Nat) : Quiescent m Framer.reset := by
  simp [Quiescent, Framer.reset]

end Sys2Proof.Machine
end

