-- ==== Sys2Proof/Laws/PerInstr.lean ====
section
/-! SUPPORT. Statements for all instructions, one lemma per constructor. The family `EncodedSize`: how
many bytes the encoding of an instruction has, by the transaction format of 30_encoding.md rule R49
and the frame layout of rule R40. -/

namespace Sys2Proof.Laws.EncodedSize

/-- The bytes the formats give an instruction: the selection byte, two bytes for a 16-bit operand or a
count, the bytes of a sequence; a chunk is its own bytes, a wire candidate its header and tail. -/
def size : Instr → Nat
  | .crcClr => 1
  | .crcUpd _ => 2
  | .crcRd => 1
  | .crcCompute s => 1 + 2 + s.length
  | .crcVerify s _ => 1 + 2 + s.length + 2
  | .encReq _ _ _ payload => 1 + 2 + 2 + 1 + 2 + payload.length
  | .decFrame r => 1 + 2 + r.length
  | .frmPush _ => 2
  | .frmRst => 1
  | .frmFeed s => s.length
  | .readReq _ _ _ tail => 8 + tail.length
  | .readResp _ _ _ tail => 8 + tail.length
  | .writeReq _ _ _ tail => 8 + tail.length
  | .ping _ _ _ tail => 8 + tail.length
  | .frame _ _ _ _ tail => 8 + tail.length

/-- The encoding has the size the formats give it. -/
def Statement (i : Instr) : Prop := (encode i).bytes.length = size i

theorem crcClr : Statement .crcClr := rfl

theorem crcUpd (b : Byte) : Statement (.crcUpd b) := rfl

theorem crcRd : Statement .crcRd := rfl

theorem crcCompute (s : Bytes) : Statement (.crcCompute s) := by
  simp [Statement, size, encode, PortItem.bytes]; omega

theorem crcVerify (s : Bytes) (e : U16) : Statement (.crcVerify s e) := by
  simp [Statement, size, encode, PortItem.bytes]; omega

theorem encReq (dest src : U16) (cmd : Byte) (payload : Bytes) :
    Statement (.encReq dest src cmd payload) := by
  simp [Statement, size, encode, PortItem.bytes]; omega

theorem decFrame (r : Bytes) : Statement (.decFrame r) := by
  simp [Statement, size, encode, PortItem.bytes]; omega

theorem frmPush (b : Byte) : Statement (.frmPush b) := rfl

theorem frmRst : Statement .frmRst := rfl

theorem frmFeed (s : Bytes) : Statement (.frmFeed s) := rfl

theorem readReq (len dest src : U16) (tail : Bytes) : Statement (.readReq len dest src tail) := by
  simp [Statement, size, encode, PortItem.bytes]

theorem readResp (len dest src : U16) (tail : Bytes) : Statement (.readResp len dest src tail) := by
  simp [Statement, size, encode, PortItem.bytes]

theorem writeReq (len dest src : U16) (tail : Bytes) : Statement (.writeReq len dest src tail) := by
  simp [Statement, size, encode, PortItem.bytes]

theorem ping (len dest src : U16) (tail : Bytes) : Statement (.ping len dest src tail) := by
  simp [Statement, size, encode, PortItem.bytes]

theorem frame (len dest src : U16) (cmd : Byte) (tail : Bytes) :
    Statement (.frame len dest src cmd tail) := by
  simp [Statement, size, encode, PortItem.bytes]

end Sys2Proof.Laws.EncodedSize
end

