-- ==== Sys2Proof/Tests/Slice0.lean ====
section
/-! SUPPORT. Small tests and the witnesses of the obligations' hypotheses. The expected values are the
vectors of 95_test_vectors.md, named in the docstrings, or computed by hand from the rule named. -/

namespace Sys2Proof.Tests

open Sys2Proof Sys2Proof.Machine

/-! ## Helpers -/

/-- Bytes written as numbers. -/
def hex (l : List Nat) : Bytes := l.map (BitVec.ofNat 8)

/-- `MAX_LEN = 512`, `DIAG = true`: the configuration of 95_test_vectors.md. -/
def vectors : Config := { maxLen := 512, diag := true }

/-- The start state of the vectors. -/
def fresh : State := State.resetWith vectors

/-- The start state with a framer put in place. -/
def holding (phase : Phase) (flen : Nat) (buf : List Nat) : State :=
  fresh.setFrm { phase := phase, buf := hex buf, flen := u16OfNat flen }

/-- The state an outcome leads to. -/
def after (o : Host.Outcome State Fault Refusal) : Option State :=
  match o with
  | .next s => some s
  | .fault _ => none
  | .refused _ => none

/-- What an instruction returns from a state. -/
def returned (i : Instr) (s : State) : Option (List Result) := (after (exec i s)).map (·.results)

/-- The reason an outcome is a refusal. -/
def refusal (o : Host.Outcome State Fault Refusal) : Option Refusal :=
  match o with
  | .next _ => none
  | .fault _ => none
  | .refused e => some e

/-- The frame `A` of 95_test_vectors.md. -/
def frameA : Bytes := hex [0x68, 0x0E, 0, 1, 0, 0x64, 0, 2, 1, 0, 0, 0xE7, 0xB1, 0x16]

/-- The frame `P` of 95_test_vectors.md. -/
def frameP : Bytes := hex [0x68, 0x0B, 0, 1, 0, 0, 0, 9, 0x35, 0xE3, 0x16]

/-- The fields of `A` (V2.10). -/
def fieldsA : Frame where
  start := 0x68#8
  length := 14#16
  dest := 0x0001#16
  src := 0x0064#16
  cmd := 0x02#8
  data := hex [1, 0, 0]
  crc := 0xB1E7#16
  stop := 0x16#8

/-- The fields of `P` (V2.11). -/
def fieldsP : Frame where
  start := 0x68#8
  length := 11#16
  dest := 0x0001#16
  src := 0x0000#16
  cmd := 0x09#8
  data := []
  crc := 0xE335#16
  stop := 0x16#8

/-- The digits of V1.11. -/
def digits : Bytes := hex [0x31, 0x32, 0x33, 0x34, 0x35, 0x36, 0x37, 0x38, 0x39]

/-- 65536 bytes: one more than a count can say (rule R49). -/
def tooMany : Bytes := List.replicate 65536 0#8

theorem countable_replicate (n : Nat) (b : Byte) :
    countable (List.replicate n b) = decide (n ≤ 65535) := by
  rw [countable, List.length_replicate]

theorem tooMany_not_countable : countable tooMany = false := by
  rw [tooMany, countable_replicate]; rfl

/-! ## WellFormed refuses an ill-formed term for each of its checks -/

theorem test_wf_crcCompute_count : WellFormed (.crcCompute tooMany) = false := by
  rw [WellFormed, tooMany_not_countable]

theorem test_wf_crcVerify_count : WellFormed (.crcVerify tooMany 0#16) = false := by
  rw [WellFormed, tooMany_not_countable]

theorem test_wf_encReq_count : WellFormed (.encReq 0#16 0#16 0#8 tooMany) = false := by
  rw [WellFormed, tooMany_not_countable]

theorem test_wf_decFrame_count : WellFormed (.decFrame tooMany) = false := by
  rw [WellFormed, tooMany_not_countable]

theorem test_wf_wire_tails :
    WellFormed (.readReq 12#16 0#16 0#16 [0#8]) = false ∧
    WellFormed (.readResp 12#16 0#16 0#16 []) = false ∧
    WellFormed (.writeReq 8#16 0#16 0#16 [0#8]) = false ∧
    WellFormed (.ping 9#16 0#16 0#16 []) = false ∧
    WellFormed (.frame 9#16 0#16 0#16 0xFF#8 []) = false := by decide

theorem test_wf_frame_command : WellFormed (.frame 8#16 0#16 0#16 0x09#8 []) = false := by decide

theorem test_wf_accepts :
    WellFormed (.crcCompute (List.replicate 65535 0#8)) = true ∧
    WellFormed (.ping 9#16 0#16 0#16 [0#8]) = true ∧
    WellFormed (.frame 0#16 0#16 0#16 0x00#8 []) = true :=
  ⟨by rw [WellFormed, countable_replicate]; rfl, by decide, by decide⟩

/-! ## Decoding: words written out from rules R40, R48 and R49 -/

/-- The first, second and last operations of P1, and its CRC.COMPUTE. -/
theorem test_decode_crc :
    decodeOp (hex [0x01, 0x02, 0x31]) = .ok (.crcClr, hex [0x02, 0x31]) ∧
    decodeOp (hex [0x02, 0x31]) = .ok (.crcUpd 0x31#8, []) ∧
    decodeOp (hex [0x03]) = .ok (.crcRd, []) ∧
    decodeOp (hex [0x04, 2, 0, 0x41, 0x42]) = .ok (.crcCompute (hex [0x41, 0x42]), []) := by
  decide +kernel

/-- The fifth operation of P2. -/
theorem test_decode_crcVerify :
    decodeOp (hex [0x05, 0x0B, 0, 0x68, 0x0E, 0, 0x20, 0, 0x64, 0, 2, 1, 7, 0, 0x34, 0x12]) =
      .ok (.crcVerify (hex [0x68, 0x0E, 0, 0x20, 0, 0x64, 0, 2, 1, 7, 0]) 0x1234#16, []) := by
  decide +kernel

/-- The first operation of P2. -/
theorem test_decode_encReq :
    decodeOp (hex [0x06, 0x20, 0, 0x64, 0, 2, 3, 0, 1, 7, 0]) =
      .ok (.encReq 0x0020#16 0x0064#16 0x02#8 (hex [1, 7, 0]), []) := by
  decide +kernel

/-- The third operation of P2. -/
theorem test_decode_decFrame :
    decodeOp (hex [0x07, 0x0E, 0, 0x68, 0x0E, 0, 0x20, 0, 0x64, 0, 2, 1, 7, 0, 0xCB, 0x14, 0x16]) =
      .ok (.decFrame (hex [0x68, 0x0E, 0, 0x20, 0, 0x64, 0, 2, 1, 7, 0, 0xCB, 0x14, 0x16]), []) := by
  decide +kernel

/-- The first bytes of P4, and its third operation. -/
theorem test_decode_framer :
    decodeOp (hex [0x08, 0x68, 0x08, 0x20]) = .ok (.frmPush 0x68#8, hex [0x08, 0x20]) ∧
    decodeOp (hex [0x09]) = .ok (.frmRst, []) ∧
    decode (.rxRead (hex [0x68, 0x20, 0])) = .ok (.frmFeed (hex [0x68, 0x20, 0]), none) := by
  decide +kernel

/-- Reserved selection bytes (rules R48, R50), and bytes that end too soon. -/
theorem test_decode_refuses :
    decodeOp (hex [0x00]) = .error (.reserved 0x00#8) ∧
    decodeOp (hex [0x0A]) = .error (.reserved 0x0A#8) ∧
    decodeOp (hex [0x11]) = .error (.reserved 0x11#8) ∧
    decodeOp (hex [0xFF]) = .error (.reserved 0xFF#8) ∧
    decodeOp (hex [0x02]) = .error .truncated ∧
    decodeOp (hex [0x04, 3, 0, 1, 2]) = .error .truncated := by
  decide +kernel

/-- `A` with a byte after it is a READ_REQ; `S2` of 95_test_vectors.md is a READ_RESP. -/
theorem test_decode_readReq_readResp :
    decodeTraffic (frameA ++ hex [0x68]) =
      .ok (.readReq 14#16 1#16 0x64#16 (hex [1, 0, 0, 0xE7, 0xB1, 0x16]), hex [0x68]) ∧
    decodeTraffic (hex [0x68, 0x11, 0, 0, 0, 0x20, 0, 0x82, 0x41, 0, 0, 4, 0, 0x2A, 0x72, 0x14, 0x16]) =
      .ok (.readResp 17#16 0#16 0x20#16 (hex [0x41, 0, 0, 4, 0, 0x2A, 0x72, 0x14, 0x16]), []) := by
  decide +kernel

/-- `P` is a PING; V2.4 is a FRAME with the unlisted function code 0x00; a WRITE_REQ header with the
least length that reaches the CMD byte has no tail. -/
theorem test_decode_ping_frame_writeReq :
    decodeTraffic frameP = .ok (.ping 11#16 1#16 0#16 (hex [0x35, 0xE3, 0x16]), []) ∧
    decodeTraffic (hex [0x68, 0x0B, 0, 0, 0, 0, 0, 0, 0x4D, 0xD8, 0x16]) =
      .ok (.frame 11#16 0#16 0#16 0#8 (hex [0x4D, 0xD8, 0x16]), []) ∧
    decodeTraffic (hex [0x68, 8, 0, 0x34, 0x12, 0x78, 0x56, 0x03]) =
      .ok (.writeReq 8#16 0x1234#16 0x5678#16 [], []) := by
  decide +kernel

/-- Traffic that begins no frame, or a frame that has not all come, is taken byte by byte. -/
theorem test_decode_traffic_bytes :
    decodeTraffic (hex [0x55, 0x68]) = .ok (.frmPush 0x55#8, hex [0x68]) ∧
    decodeTraffic (frameP.take 10) = .ok (.frmPush 0x68#8, (frameP.take 10).drop 1) := by
  decide +kernel

/-- Words as spec/opcode_table.json numbers them: an operation's first byte, and a wire row's eight
header bytes with offset 0 in the most significant byte, so that a word with START at the other end
matches no row (rule R51). The word of FRM.FEED is that of FRM.PUSH (rule R52: it is encoded as its
pushes). -/
theorem test_decodeTableWord :
    decodeTableWord 8 0x01 = some .crcClr ∧ decodeTableWord 8 0x08 = some (.frmPush 0#8) ∧
    decodeTableWord 8 0x06 = some (.encReq 0#16 0#16 0#8 []) ∧ decodeTableWord 8 0x0A = none ∧
    decodeTableWord 64 0x680B000100000009 = some (.ping 11#16 1#16 0#16 (hex [0, 0, 0])) ∧
    decodeTableWord 64 0x6800000000000003 = some (.writeReq 0#16 0#16 0#16 []) ∧
    decodeTableWord 64 0x69000000000000FF = none ∧ decodeTableWord 64 0x0900000001000B68 = none := by
  decide +kernel

/-- The step after `withFetchWord` runs the word's instruction first. -/
theorem test_withFetchWord_runs :
    (after (step (State.reset.withFetchWord 16 0x3102))).map (·.crcReg) = some 0x2672#16 ∧
    (after (step (State.reset.withFetchWord 64 0x6800000000000009))).map (·.results) =
      some [.frames [] []] := by
  decide +kernel

/-! ## CRC Engine -/

/-- V1.20 and P1, first steps. -/
theorem test_crcClr_crcUpd :
    (after (exec (.crcUpd 0x32#8) (fresh.setCrcReg 0x2672#16))).map (·.crcReg) = some 0x20B5#16 ∧
    (after (exec .crcClr (fresh.setCrcReg 0x20B5#16))).map (·.crcReg) = some 0x0000#16 := by
  decide +kernel

/-- V1.18, non-zero starting values. -/
theorem test_crcByte_vectors :
    crcByte 0xFFFF#16 0x00#8 = 0xE1F0#16 ∧ crcByte 0x8000#16 0x00#8 = 0x9188#16 ∧
    crcByte 0x0001#16 0x00#8 = 0x0100#16 ∧ crcByte 0xFFFF#16 0xFF#8 = 0xFF00#16 ∧
    crcByte 0x31C3#16 0x31#8 = 0xC300#16 ∧ crcByte 0x31C3#16 0xC3#8 = 0x0C5D#16 := by
  decide +kernel

/-- V1.20: reading does not clear. -/
theorem test_crcRd_keeps :
    (after (exec .crcRd (fresh.setCrcReg 0x20B5#16))).map (fun s => (s.crcReg, s.results)) =
      some (0x20B5#16, [.u16 0x20B5#16]) := by
  decide +kernel

/-- V1.11, V1.13, V1.16. -/
theorem test_crcCompute_vectors :
    returned (.crcCompute digits) fresh = some [.u16 0x31C3#16] ∧
    returned (.crcCompute (hex [0x10, 0x21])) fresh = some [.u16 0x3730#16] ∧
    returned (.crcCompute (digits ++ hex [0xC3, 0x31])) fresh = some [.u16 0xBAFE#16] := by
  decide +kernel

/-- V1.17. -/
theorem test_crcVerify_vectors :
    returned (.crcVerify digits 0x31C3#16) fresh = some [.bool true] ∧
    returned (.crcVerify digits 0xC331#16) fresh = some [.bool false] ∧
    returned (.crcVerify [] 0x0001#16) fresh = some [.bool false] := by
  decide +kernel

/-! ## Frame Codec -/

/-- V2.2, V2.5 and V2.7. -/
theorem test_encReq_vectors :
    returned (.encReq 0x0020#16 0x0064#16 0x02#8 (readReqPayload 999#16)) fresh =
      some [.bytes (hex [0x68, 0x0E, 0, 0x20, 0, 0x64, 0, 2, 1, 0xE7, 3, 0x1A, 0x34, 0x16])] ∧
    returned (.encReq 0xFFFF#16 0xFFFF#16 0xFF#8 (hex [0xFF])) fresh =
      some [.bytes (hex [0x68, 0x0C, 0, 0xFF, 0xFF, 0xFF, 0xFF, 0xFF, 0xFF, 0xB2, 0x57, 0x16])] ∧
    returned (.encReq 0x1668#16 0x6816#16 0x16#8 (hex [0x68, 0x16, 0x68, 0x0B, 0])) fresh =
      some [.bytes (hex [0x68, 0x10, 0, 0x68, 0x16, 0x16, 0x68, 0x16, 0x68, 0x16, 0x68, 0x0B, 0, 0xCA,
        0x80, 0x16])] := by
  decide +kernel

/-- V2.8 and V2.9: under `MAX_LEN = 512`, 501 payload bytes are accepted and 502 refused. -/
theorem test_encReq_bound :
    exec (.encReq 2#16 3#16 0x82#8 (List.replicate 501 0#8)) fresh =
      .next (fresh.returning (.bytes (encodeFrame 2#16 3#16 0x82#8 (List.replicate 501 0#8)))) ∧
    exec (.encReq 2#16 3#16 0x82#8 (List.replicate 502 0#8)) fresh = .refused .payloadTooLong := by
  constructor <;> rw [exec_encReq, List.length_replicate] <;> rfl

/-- V2.10 and V2.11. -/
theorem test_decFrame_fields :
    returned (.decFrame frameA) fresh = some [.frame fieldsA] ∧
    returned (.decFrame frameP) fresh = some [.frame fieldsP] := by
  decide +kernel

/-- V2.12, V2.14, V2.15, V2.16, V2.17, V2.18, V2.19 and V2.20. -/
theorem test_decFrame_errors :
    decodeFrame (frameA.set 8 0#8) = .error .crcMismatch ∧
    decodeFrame ((frameA.set 11 0xB1#8).set 12 0xE7#8) = .error .crcMismatch ∧
    decodeFrame (frameA.set 13 0x17#8) = .error .malformedHeader ∧
    decodeFrame (frameA.set 0 0x69#8) = .error .malformedHeader ∧
    decodeFrame ((frameA.set 8 0#8).set 13 0x17#8) = .error .malformedHeader ∧
    decodeFrame (frameA.take 10) = .error .malformedHeader ∧
    decodeFrame [] = .error .malformedHeader ∧
    decodeFrame (frameA ++ hex [0x16]) = .error .malformedHeader := by
  decide +kernel

/-! ## Stream Framer -/

/-- V3.1, the pushes at positions 2 and 10. -/
theorem test_frmPush_length_and_last :
    after (exec (.frmPush 0#8) (holding .readLength 0 [0x68, 0x0B])) =
      some ((holding .accumulateBody 11 [0x68, 0x0B, 0]).returning (.frames [] [])) ∧
    after (exec (.frmPush 0x16#8) (holding .accumulateBody 11 [0x68, 0x0B, 0, 1, 0, 0, 0, 9, 0x35, 0xE3])) =
      some ((holding .seekStart 11 []).returning (.frames [fieldsP] [])) := by
  decide +kernel

/-- V3.6: one push resynchronises on the CRC, then emits the two frames inside the failed candidate. -/
theorem test_frmPush_several_frames :
    after (exec (.frmPush 0x16#8)
      (fresh.setFrm
        { phase := .accumulateBody, flen := 28#16
          buf := hex [0x68, 0x1C, 0] ++ (frameP ++ frameA.dropLast) })) =
      some ((holding .seekStart 14 []).returning (.frames [fieldsP, fieldsA] [.crcMismatch])) := by
  decide +kernel

/-- V3.3 as one chunk: noise with START bytes whose lengths are out of range. -/
theorem test_frmFeed_noise :
    after (exec (.frmFeed (frameA ++ (hex [0x68, 0, 0, 0x68, 0xFF, 0xFF, 0x68] ++ frameP))) fresh) =
      some ((holding .seekStart 11 []).returning
        (.frames [fieldsA, fieldsP] [.malformedHeader, .malformedHeader, .malformedHeader])) := by
  decide +kernel

/-- V3.5: a false START whose length reaches beyond the stream holds both frames back. -/
theorem test_frmFeed_stall :
    after (exec (.frmFeed (hex [0x68, 0x20, 0] ++ (frameP ++ frameA))) fresh) =
      some ((fresh.setFrm
        { phase := .accumulateBody, flen := 32#16
          buf := hex [0x68, 0x20, 0] ++ (frameP ++ frameA) }).returning (.frames [] [])) := by
  decide +kernel

/-- V3.12. -/
theorem test_frmRst_mid_frame :
    after (exec .frmRst (holding .accumulateBody 14 [0x68, 0x0E, 0, 1, 0, 0x64, 0, 2, 1])) =
      some fresh := by
  decide +kernel

/-- Without `DIAG` the kinds are not returned (rule R131): V3.10 under the suggested defaults. -/
theorem test_diag_off :
    returned (.frmFeed (hex [0x68] ++ frameP)) State.reset = some [.frames [fieldsP] []] := by
  decide +kernel

/-! ## Wire rows -/

/-- `A`, and V2.6 (a READ_RESP with a text payload), as traffic on the wire. -/
theorem test_wire_readReq_readResp :
    returned (.readReq 14#16 1#16 0x64#16 (hex [1, 0, 0, 0xE7, 0xB1, 0x16])) fresh =
      some [.frames [fieldsA] []] ∧
    returned (.readResp 26#16 0x64#16 1#16
      (hex [0x54, 0x70, 0x6F, 0x6B, 0x6A, 0, 0xB0, 0x43, 0, 7, 0xFF, 0, 0, 0xA0, 0x41, 0x0D, 0x5E,
        0x16])) fresh =
      some [.frames
        [{ start := 0x68#8, length := 26#16, dest := 0x64#16, src := 1#16, cmd := 0x82#8,
           data := hex [0x54, 0x70, 0x6F, 0x6B, 0x6A, 0, 0xB0, 0x43, 0, 7, 0xFF, 0, 0, 0xA0, 0x41],
           crc := 0x5E0D#16, stop := 0x16#8 }] []] := by
  decide +kernel

/-- `P` and V2.4 as traffic; a PING with a wrong CRC is not emitted. -/
theorem test_wire_ping_frame :
    returned (.ping 11#16 1#16 0#16 (hex [0x35, 0xE3, 0x16])) fresh =
      some [.frames [fieldsP] []] ∧
    returned (.frame 11#16 0#16 0#16 0#8 (hex [0x4D, 0xD8, 0x16])) fresh =
      some [.frames
        [{ start := 0x68#8, length := 11#16, dest := 0#16, src := 0#16, cmd := 0#8, data := [],
           crc := 0xD84D#16, stop := 0x16#8 }] []] ∧
    returned (.ping 11#16 1#16 0#16 (hex [0xE3, 0x35, 0x16])) fresh =
      some [.frames [] [.crcMismatch]] := by
  decide +kernel

/-- A WRITE_REQ too short for a frame: its length is out of range (rule R92). -/
theorem test_wire_writeReq_short :
    returned (.writeReq 8#16 0#16 0#16 []) fresh = some [.frames [] [.malformedHeader]] := by
  decide +kernel

/-! ## Codes, the reset event, and the step with nothing issued -/

/-- Rules R12 and R119. -/
theorem test_codes :
    [Phase.seekStart, .readLength, .accumulateBody, .emitOrResync].map Phase.code = [0, 1, 2, 3] ∧
    [FrameError.malformedHeader, .crcMismatch].map FrameError.code = [1, 2] := by
  decide

/-- Rule R135: the four pieces of state go back to their reset values. -/
theorem test_reset_event :
    after (step ((holding .readLength 14 [0x68]).setCrcReg 0x1234#16 |>.setInput [.reset])) =
      some fresh := by
  decide +kernel

/-- P1's first two operations in one item: the step takes the first and leaves the second. -/
theorem test_step_takes_one_operation :
    after (step ((fresh.setCrcReg 0xFFFF#16).setInput [.offer (.ops (hex [0x01, 0x02, 0x31]))])) =
      some (fresh.setInput [.offer (.ops (hex [0x02, 0x31]))]) ∧
    after (step fresh) = some fresh ∧
    refusal (step (fresh.setInput [.offer (.ops (hex [0x0A]))])) =
      some (.reservedOperation 0x0A#8) := by
  decide +kernel

/-! ## Witnesses: states and operands that meet the hypotheses of the obligations -/

/-- Quiescent framers: one for each phase, at the least and the greatest buffer of each. -/
theorem witness_quiescent :
    Quiescent 512 fresh.frm ∧
    Quiescent 512 (holding .readLength 0 [0x68]).frm ∧
    Quiescent 512 (holding .readLength 0 [0x68, 0xFF]).frm ∧
    Quiescent 512 (holding .accumulateBody 11 [0x68, 0x0B, 0]).frm ∧
    Quiescent 512 (holding .accumulateBody 11 [0x68, 0x0B, 0, 1, 2, 3, 4, 5, 6, 7]).frm ∧
    Quiescent 512 (holding .accumulateBody 512 [0x68, 0x00, 0x02]).frm := by
  refine ⟨?_, ?_, ?_, ?_, ?_, ?_⟩ <;>
    simp +decide [Quiescent, fresh, holding, hex, Framer.reset]

/-- Framers inside a push, one for each phase. -/
theorem witness_midPush :
    MidPush 512 (holding .seekStart 0 [0x55]).frm ∧
    MidPush 512 (holding .readLength 0 [0x68]).frm ∧
    MidPush 512 (holding .accumulateBody 11 [0x68, 0x0B, 0]).frm ∧
    MidPush 512 (holding .emitOrResync 11 [0x68, 0x0B, 0, 1, 0, 0, 0, 9, 0x35, 0xE3, 0x16]).frm := by
  refine ⟨?_, ?_, ?_, ?_⟩ <;> simp +decide [MidPush, holding, hex]

/-- Idle framers: after reset, and after a frame, with a stale `FRM.FLEN`. -/
theorem witness_idle : Idle fresh.frm ∧ Idle (holding .seekStart 14 []).frm :=
  ⟨⟨rfl, rfl⟩, ⟨rfl, rfl⟩⟩

/-- The smallest configuration: `MAX_LEN = MIN_LEN`. -/
def smallest : Config := { maxLen := 11, diag := false }

/-- Valid frames as bytes: the smallest one, which is as long as the smallest configuration accepts,
and another. -/
theorem witness_validFrame :
    ValidFrame frameP ∧ frameP.length ≤ smallest.maxLen ∧ ValidFrame frameA := by
  decide +kernel

/-- Valid frames as records, within 512 bytes, and their wire forms. -/
theorem witness_frameValid :
    fieldsA.Valid ∧ fieldsP.Valid ∧ fieldsA.wire = frameA ∧ fieldsP.wire = frameP ∧
    fieldsA.length.toNat ≤ fresh.config.maxLen ∧ fieldsP.length.toNat ≤ fresh.config.maxLen := by
  decide +kernel

/-- A state that meets the invariant, in the middle of a frame and with a frame returned. -/
theorem witness_inv :
    ((holding .readLength 0 [0x68]).returning (.frames [fieldsA] [])).Inv := by
  refine ⟨witness_quiescent.2.1, ?_⟩
  intro r hr
  have h : r = .frames [fieldsA] [] := List.mem_singleton.mp hr
  subst h
  intro f hf
  have h : f = fieldsA := List.mem_singleton.mp hf
  subst h
  decide +kernel

/-- VerifyAcceptsExactlyTheComputedValue: a computation, and another value. -/
theorem witness_verify :
    after (exec (.crcCompute digits) fresh) = some (fresh.returning (.u16 0x31C3#16)) ∧
    (0xC331#16 : U16) ≠ 0x31C3#16 := by
  decide +kernel

/-- CrcRegisterFollowsSerialOperationsOnly: a run with operations of all units. -/
theorem witness_execAll :
    (after (execAll [.crcClr, .crcUpd 0x31#8, .frmPush 0x68#8, .crcCompute digits, .crcRd] fresh)).map
      (·.crcReg) = some 0x2672#16 := by
  decide +kernel

/-- CrcIsLinear, second part: sequences of equal length (V1.19). -/
theorem witness_linear :
    (hex [0x01]).length = (hex [0x80]).length ∧ crc16 (hex [0x81]) = 0x81A9#16 ∧
    crc16 (hex [0x01]) ^^^ crc16 (hex [0x80]) = 0x81A9#16 := by
  decide +kernel

/-- EncodeBuildsTheFrame, EncodedFrameHasTheWireLayout and DecodeOfEncodedFrameIsItsFields: the least
and the greatest payload. -/
theorem witness_payload_sizes :
    11 + ([] : Bytes).length ≤ 65535 ∧ 11 + (List.replicate 65524 (0#8 : Byte)).length ≤ 65535 := by
  rw [List.length_replicate]; decide

/-- EncReqReturnsFrameOrIsRefused, each clause at the bound; also LoopbackOfEncReqEmitsTheRequest and
ValidWireFramesAreEmittedWhateverTheirCommand. -/
theorem witness_encReq_bounds :
    11 + (List.replicate 501 (0#8 : Byte)).length ≤ fresh.config.maxLen ∧
    fresh.config.maxLen < 11 + (List.replicate 502 (0#8 : Byte)).length := by
  rw [List.length_replicate, List.length_replicate]; decide

/-- DecFrameReturnsFieldsOrError, DecodeAcceptsExactlyValidFrames, CrcMismatchHasOneCause and
MalformedHeaderCauses: a range for every outcome, with ranges of 10 and 11 bytes for the size check. -/
theorem witness_decode_outcomes :
    decodeFrame frameA = .ok fieldsA ∧ decodeFrame (frameA.set 12 0x31#8) = .error .crcMismatch ∧
    decodeFrame (frameP.take 10) = .error .malformedHeader ∧ decodeFrame frameP = .ok fieldsP := by
  decide +kernel

/-- CrcMismatchHasOneCause and MalformedHeaderCauses, on steps: each kind of resync. -/
theorem witness_resync_steps :
    internalStep 512 (holding .emitOrResync 11 [0x68, 0x0B, 0, 1, 0, 0, 0, 9, 0x35, 0xE2, 0x16]).frm =
      .ok ((holding .seekStart 11 [0x0B, 0, 1, 0, 0, 0, 9, 0x35, 0xE2, 0x16]).frm,
        .resync .crcMismatch) ∧
    internalStep 512 (holding .emitOrResync 11 [0x68, 0x0B, 0, 1, 0, 0, 0, 9, 0x35, 0xE3, 0x17]).frm =
      .ok ((holding .seekStart 11 [0x0B, 0, 1, 0, 0, 0, 9, 0x35, 0xE3, 0x17]).frm,
        .resync .malformedHeader) ∧
    internalStep 512 (holding .readLength 0 [0x68, 0x0A, 0]).frm =
      .ok ((holding .seekStart 0 [0x0A, 0]).frm, .resync .malformedHeader) := by
  decide +kernel

/-- SingleCorruptedByteIsDetected: the last byte of a valid frame changed. -/
theorem witness_corruption :
    ValidFrame frameA ∧ 13 < frameA.length ∧ (0x17#8 : Byte) ≠ frameA.getD 13 0#8 := by
  decide +kernel

/-- EncodeOfDecodedFrameIsTheRange. -/
theorem witness_decoded : decodeFrame frameA = .ok fieldsA := by decide +kernel

/-- SeekStartStepFindsFirstStart: the first START behind another byte; none at all; nothing
buffered. -/
theorem witness_seekStart :
    internalStep 512 (holding .seekStart 0 [0x55, 0x68, 0x68]).frm =
      .ok ((holding .readLength 0 [0x68, 0x68]).frm, .progress) ∧
    internalStep 512 (holding .seekStart 0 [0x55, 0x16]).frm = .ok (fresh.frm, .wait) ∧
    internalStep 512 fresh.frm = .ok (fresh.frm, .wait) := by
  decide +kernel

/-- ReadLengthStepTakesOrRejectsLength: two bytes, and the lengths 10, 11, 512 and 513. -/
theorem witness_readLength :
    internalStep 512 (holding .readLength 7 [0x68, 0x0B]).frm =
      .ok ((holding .readLength 7 [0x68, 0x0B]).frm, .wait) ∧
    internalStep 512 (holding .readLength 7 [0x68, 0x0A, 0]).frm =
      .ok ((holding .seekStart 7 [0x0A, 0]).frm, .resync .malformedHeader) ∧
    internalStep 512 (holding .readLength 7 [0x68, 0x0B, 0]).frm =
      .ok ((holding .accumulateBody 11 [0x68, 0x0B, 0]).frm, .progress) ∧
    internalStep 512 (holding .readLength 7 [0x68, 0, 2]).frm =
      .ok ((holding .accumulateBody 512 [0x68, 0, 2]).frm, .progress) ∧
    internalStep 512 (holding .readLength 7 [0x68, 1, 2]).frm =
      .ok ((holding .seekStart 7 [1, 2]).frm, .resync .malformedHeader) := by
  decide +kernel

/-- AccumulateBodyStepWaitsForDeclaredLength: one byte short, and just enough. -/
theorem witness_accumulateBody :
    internalStep 512 (holding .accumulateBody 4 [0x68, 4, 0]).frm =
      .ok ((holding .accumulateBody 4 [0x68, 4, 0]).frm, .wait) ∧
    internalStep 512 (holding .accumulateBody 3 [0x68, 3, 0]).frm =
      .ok ((holding .emitOrResync 3 [0x68, 3, 0]).frm, .progress) := by
  decide +kernel

/-- EmitOrResyncStepEmitsOrDropsOneByte: a candidate with another byte behind it is emitted (the
failing candidates are those of `witness_resync_steps`). -/
theorem witness_emit :
    internalStep 512
        (holding .emitOrResync 11 [0x68, 0x0B, 0, 1, 0, 0, 0, 9, 0x35, 0xE3, 0x16, 0x68]).frm =
      .ok ((holding .seekStart 11 [0x68]).frm, .emit fieldsP) := by
  decide +kernel

/-- BufferChangesByItsPrimitivesOnly: an append into the last place, a drop of all there is. -/
theorem witness_primitives :
    (holding .seekStart 0 [1]).frm.buf.length < 2 ∧ 1 ≤ (holding .seekStart 0 [1]).frm.buf.length := by
  decide

/-- PushAppendsThenStepsUntilWait, second part: a run of the loop. -/
theorem witness_runsUntilWait :
    RunsUntilWait 512 (holding .seekStart 0 [0x68]).frm [.progress, .wait]
      (holding .readLength 0 [0x68]).frm :=
  .goesOn (g := (holding .readLength 0 [0x68]).frm) (by decide +kernel) (by decide)
    (.waits (by decide +kernel))

/-- FeedIsItsPushesInOrder and ChunkedFeedsEqualScan: V3.9, the stream of V3.2 in the chunks (d). -/
theorem witness_chunks :
    (after (execAll
      ((([13, 1, 5, 10, 1].foldl (fun (p : List Bytes × Bytes) n =>
          (p.1 ++ [p.2.take n], p.2.drop n))
        ([], frameA ++ (hex [0, 0xFF, 0x16, 0x55, 0xAA] ++ frameP))).1).map Instr.frmFeed) fresh)).map
      (fun s => framesIn s.results) = some [fieldsA, fieldsP] := by
  decide +kernel

/-- ScanIsItsRecursionAndMonotone: every line of the recursion is met, here on the streams of V3.5,
V3.8 and V3.10, a failed candidate and a valid one. -/
theorem witness_scan :
    scan 512 (hex [0x55] ++ frameP) = [frameP] ∧
    scan 512 (hex [0x68, 0x0B]) = [] ∧
    scan 512 (hex [0x68] ++ frameP) = [frameP] ∧
    scan 512 (hex [0x68, 0x20, 0] ++ frameP) = [] ∧
    scan 512 (frameA ++ frameP) = [frameA, frameP] ∧
    scan 512 (frameA.set 8 0#8 ++ frameP) = [frameP] := by
  decide +kernel

/-- PushTerminatesWithinItsBound, QuiescentIsWhereTheNextStepWaits and FlenIsUnreadBeforeItIsWritten: a
push that is answered, from each of the two phases, the second reaching `ACCUMULATE_BODY`. -/
theorem witness_push :
    pushByte vectors 0x68#8 (holding .seekStart 9 []).frm =
      .ok ((holding .readLength 9 [0x68]).frm, [.progress, .wait]) ∧
    pushByte vectors 0#8 (holding .readLength 9 [0x68, 0x0B]).frm =
      .ok ((holding .accumulateBody 11 [0x68, 0x0B, 0]).frm, [.progress, .wait]) := by
  decide +kernel

/-- FirstFrameIsEmittedAtItsLastByte and FramesWithStartFreeGapsAreReframedExactly: gaps with no START,
frames of accepted length. -/
theorem witness_gaps :
    (∀ b ∈ hex [0x00, 0xFF, 0x16], b ≠ 0x68#8) ∧ ValidFrame frameA ∧
    frameA.length ≤ fresh.config.maxLen ∧
    (∀ p ∈ [(hex [0x16], fieldsA), ([], fieldsP)], (∀ b ∈ p.1, b ≠ 0x68#8) ∧ p.2.Valid ∧
      p.2.length.toNat ≤ fresh.config.maxLen) := by
  decide +kernel

/-- ResyncRecoversTheSecondFrame: the noise of V3.3, which holds START bytes, meets the side
condition. -/
theorem witness_noise :
    (let noise := hex [0x68, 0, 0, 0x68, 0xFF, 0xFF, 0x68]
     let stream := noise ++ fieldsP.wire
     ∀ p < noise.length, stream.getD p 0#8 = 0x68#8 →
      let L := (stream.getD (p + 1) 0#8).toNat + 256 * (stream.getD (p + 2) 0#8).toNat
      (L < 11 ∨ fresh.config.maxLen < L) ∨
        (p + L ≤ stream.length ∧ ¬ ValidFrame ((stream.drop p).take L))) := by
  decide +kernel

/-- The same side condition by its other arm: a candidate that lies in the stream and fails on
its CRC. -/
theorem witness_noise_failing :
    (let noise := hex [0x68, 0x0E, 0]
     let stream := noise ++ fieldsP.wire
     ∀ p < noise.length, stream.getD p 0#8 = 0x68#8 →
      let L := (stream.getD (p + 1) 0#8).toNat + 256 * (stream.getD (p + 2) 0#8).toNat
      (L < 11 ∨ fresh.config.maxLen < L) ∨
        (p + L ≤ stream.length ∧ ¬ ValidFrame ((stream.drop p).take L))) := by
  decide +kernel

/-- IncompleteCandidateHoldsTheFramer: seven bytes that leave an eleven-byte candidate one short. -/
theorem witness_incomplete :
    (holding .accumulateBody 11 [0x68, 0x0B, 0]).frm.phase = .accumulateBody ∧
    (holding .accumulateBody 11 [0x68, 0x0B, 0]).frm.buf.length + (hex [1, 2, 3, 4, 5, 6, 7]).length <
      (holding .accumulateBody 11 [0x68, 0x0B, 0]).frm.flen.toNat := by
  decide

/-- EveryStepKeepsTheInvariant: a step from a state that meets the invariant. -/
theorem witness_step :
    (after (step (((holding .readLength 0 [0x68]).returning (.frames [fieldsA] [])).setInput
      [.offer (.rxTraffic frameP)]))).isSome = true := by
  decide +kernel

/-- UnitsTouchOnlyTheirOwnState, OutcomeDependsOnlyOnBlockState and OperationsOfDifferentUnitsCommute:
an operation of each of two units, each with a next state. -/
theorem witness_units :
    unitOf (.crcUpd 0x31#8) ≠ unitOf (.frmPush 0x68#8) ∧ unitOf (.decFrame frameA) = .stateless ∧
    (after (execAll [.crcUpd 0x31#8, .frmPush 0x68#8] fresh)).isSome = true ∧
    (after (execAll [.decFrame frameA, .decFrame frameA] fresh)).isSome = true := by
  decide +kernel

/-- DiagnosticsChangeNothingElse: two configurations with one `MAX_LEN`. -/
theorem witness_diag :
    State.reset.config.maxLen = fresh.config.maxLen ∧ State.reset.config ≠ fresh.config ∧
    (after (exec (.frmPush 0x68#8) fresh)).isSome = true := by
  decide +kernel

/-- A CRC.COMPUTE of 65536 bytes, more than a count can say, is issued as a transaction and returns its
CRC (rules R21, R62). -/
theorem test_step_long_transaction :
    step (fresh.setInput [.offer (.transaction (.crcCompute tooMany))]) =
      .next (fresh.returning (.u16 (crc16 tooMany))) := by
  rw [step_transaction (State.setInput_input _ _), Transaction.instr, exec_crcCompute]; rfl

/-- Transactions at two other ports of rule R21: DEC.FRAME (V2.18) and CRC.UPD (V1.20). -/
theorem test_step_transactions :
    (after (step (fresh.setInput [.offer (.transaction (.decFrame (frameA.take 10)))]))).map
      (·.results) = some [.error .malformedHeader] ∧
    (after (step (fresh.setInput [.offer (.transaction (.crcUpd 0x31#8))]))).map (·.crcReg) =
      some 0x2672#16 := by
  decide +kernel

/-- StepRunsTheDecodedInstruction: an item with two operations, one with the last of them, a transaction
with the shortest operand (`test_step_long_transaction` has a long one), and nothing issued. -/
theorem witness_item :
    decode (.ops (hex [0x01, 0x02, 0x31])) = .ok (.crcClr, some (.ops (hex [0x02, 0x31]))) ∧
    decode (.ops (hex [0x02, 0x31])) = .ok (.crcUpd 0x31#8, none) ∧
    (fresh.setInput [.offer (.ops (hex [0x02, 0x31]))]).input =
      [.offer (.ops (hex [0x02, 0x31]))] ∧
    (fresh.setInput [.offer (.transaction (.crcCompute []))]).input =
      [.offer (.transaction (.crcCompute []))] ∧ fresh.input = [] := by
  decide +kernel

/-- ResetEventRestoresResetValues and ReservedSelectionIsRefused: the inputs, and the selection bytes
next to the nine. -/
theorem witness_inputs :
    (fresh.setInput [.reset]).input = [.reset] ∧
    (fresh.setInput [.offer (.ops (hex [0]))]).input = [.offer (.ops (hex [0]))] ∧
    (0x00#8 : Byte).toNat = 0 ∧ 9 < (0x0A#8 : Byte).toNat := by
  decide +kernel

/-- DecodeOfEncodeIsTheInstruction: well-formed instructions of both formats, and their encodings. -/
theorem witness_wellFormed :
    WellFormed (.crcVerify digits 0x31C3#16) = true ∧
    WellFormed (.frame 11#16 0#16 0#16 0xFF#8 (hex [1, 2, 3])) = true ∧
    encode (.crcUpd 0x31#8) = .ops (hex [0x02, 0x31]) ∧
    encode (.ping 11#16 1#16 0#16 (hex [0x35, 0xE3, 0x16])) = .rxTraffic frameP := by
  decide +kernel

/-- DecodedOperationIsItsEncoding and TrafficIsDeliveredWhole. -/
theorem witness_decodable :
    decodeOp (hex [0x02, 0x31, 0xFF]) = .ok (.crcUpd 0x31#8, hex [0xFF]) ∧ frameA ≠ [] := by
  decide +kernel

end Sys2Proof.Tests
end

section
/-! The CRC Engine's one-shot operations (40_crc.md rules R62, R63): how `crc16` folds over an append and
over leading zero bytes, and the selection of an operation by its code. -/

namespace Sys2Proof.Machine

/-! ## The fold of `crc_byte` -/

theorem crcFold_append (c : U16) (xs ys : Bytes) :
    crcFold c (xs ++ ys) = crcFold (crcFold c xs) ys := List.foldl_append

@[simp] theorem crc16_nil : crc16 [] = 0x0000#16 := rfl

/-- The CRC of an append goes on from the CRC of its first part, there being no final XOR (rule R61). -/
theorem crc16_append (xs ys : Bytes) : crc16 (xs ++ ys) = crcFold (crc16 xs) ys :=
  crcFold_append CRC_INIT xs ys

/-- A zero byte leaves the cleared register cleared, since no 1 is ever shifted out (rule R60). -/
theorem crcByte_zero_zero : crcByte 0x0000#16 0x00#8 = 0x0000#16 := by decide

theorem crc16_replicate_zero (n : Nat) : crc16 (List.replicate n 0x00#8) = 0x0000#16 := by
  induction n with
  | zero => rfl
  | succ n ih =>
    calc crc16 (List.replicate (n + 1) 0x00#8)
        = crcByte (crc16 (List.replicate n 0x00#8)) 0x00#8 := by
          rw [List.replicate_succ', crc16_append]; rfl
      _ = 0x0000#16 := by rw [ih, crcByte_zero_zero]

/-- Leading zero bytes leave the fold at `CRC_INIT`, where `crc16` of the rest begins (rule R69 item 4). -/
theorem crc16_replicate_zero_append (n : Nat) (bs : Bytes) :
    crc16 (List.replicate n 0x00#8 ++ bs) = crc16 bs := by
  rw [crc16_append, crc16_replicate_zero]; rfl

/-- The check value of the CRC: the digits 1 to 9 in ASCII (V1.11 of 95_test_vectors.md). -/
theorem crc16_digits :
    crc16 [0x31#8, 0x32#8, 0x33#8, 0x34#8, 0x35#8, 0x36#8, 0x37#8, 0x38#8, 0x39#8] = 0x31C3#16 := by
  decide +kernel

/-! ## Selection and the two operations -/

/-- Every operation is selected by its own selection byte (rule R48). -/
@[simp] theorem selectOp_sel (op : OpCode) : selectOp op.sel = some op := by
  cases op <;> decide

/-- CRC.VERIFY compares numbers: its result is the equality of the two values (rule R63). -/
theorem exec_crcVerify_toNat (bs : Bytes) (e : U16) (s : State) :
    exec (.crcVerify bs e) s =
      .next (s.returning (.bool (decide ((crc16 bs).toNat = e.toNat)))) := by
  have hcmp : (crc16 bs == e) = decide ((crc16 bs).toNat = e.toNat) := by
    rw [Bool.eq_iff_iff, beq_iff_eq, decide_eq_true_iff, BitVec.toNat_inj]
  rw [exec_crcVerify, hcmp]

/-- Settles O1: the execution rule of CRC.COMPUTE, and induction on the number of leading zero bytes. -/
theorem crcComputeReturnsCrc16 : Obligations.CrcComputeReturnsCrc16 :=
  ⟨exec_crcCompute, selectOp_sel .crcCompute, crc16_nil, crc16_replicate_zero_append, crc16_digits⟩

/-- Settles O2: equal 16-bit words are the words with equal values. -/
theorem crcVerifyComparesCrc16 : Obligations.CrcVerifyComparesCrc16 := by
  refine ⟨exec_crcVerify_toNat, selectOp_sel .crcVerify, crc16_nil, ?_, crc16_digits, ?_⟩
  · rw [crc16_nil]; decide
  · rw [crc16_digits]; decide

end Sys2Proof.Machine
end

section
/-! PROOFS. The Frame Codec (41_codec.md): the bytes `encode` writes (rule R75). -/

namespace Sys2Proof.Machine

/-- START, LEN, DEST, SRC and CMD, each field low byte first (rules R40, R27). -/
theorem headerBytes_eq (len dest src : U16) (cmd : Byte) :
    headerBytes len dest src cmd =
      [0x68#8, lo8 len, hi8 len, lo8 dest, hi8 dest, lo8 src, hi8 src, cmd] := rfl

/-- The body is the header, LEN counting the whole frame, and the payload (rule R75). -/
theorem encodeBody_eq (dest src : U16) (cmd : Byte) (payload : Bytes) :
    encodeBody dest src cmd payload =
      [0x68#8, lo8 (u16OfNat (11 + payload.length)), hi8 (u16OfNat (11 + payload.length)),
        lo8 dest, hi8 dest, lo8 src, hi8 src, cmd] ++ payload := by
  rw [encodeBody, headerBytes_eq]

/-- A frame is its body, the body's CRC low byte first, and STOP (rule R75). -/
theorem encodeFrame_eq (dest src : U16) (cmd : Byte) (payload : Bytes) :
    encodeFrame dest src cmd payload =
      encodeBody dest src cmd payload ++
        [lo8 (crc16 (encodeBody dest src cmd payload)),
          hi8 (crc16 (encodeBody dest src cmd payload)), 0x16#8] := rfl

/-- Settles O13: the two equations of the encoder; up to 65535 the LEN field holds its length. -/
theorem encodeBuildsTheFrame : Obligations.EncodeBuildsTheFrame := by
  intro dest src cmd payload hlen L body
  have hbody : encodeBody dest src cmd payload = body := encodeBody_eq dest src cmd payload
  have hL : L.toNat = 11 + payload.length := u16OfNat_toNat hlen
  refine ⟨hbody, ?_, hL, ?_⟩
  · rw [encodeFrame_eq, hbody]
  · rw [encodeFrame_length, hL]

end Sys2Proof.Machine
end

section
/-! PROOFS. The Stream Framer (42_framer.md): the steps of `ACCUMULATE_BODY` and `EMIT_OR_RESYNC`
(rules R93, R94), and chunks of the RX stream fed one after another (rule R96). -/

namespace Sys2Proof.Machine

/-! ## The step of `ACCUMULATE_BODY` -/

theorem internalStep_accumulateBody (m : Nat) {f : Framer} (hp : f.phase = .accumulateBody) :
    internalStep m f =
      if f.buf.length < f.flen.toNat then .ok (f, .wait)
      else .ok ({ f with phase := .emitOrResync }, .progress) := by
  rw [internalStep, hp]; rfl

/-- Settles O25: the two branches of the step. -/
theorem accumulateBodyStepWaitsForDeclaredLength :
    Obligations.AccumulateBodyStepWaitsForDeclaredLength := by
  intro m f hp
  rw [internalStep_accumulateBody m hp]
  exact ⟨fun hshort => if_pos hshort, fun hlong => if_neg (Nat.not_lt.mpr hlong)⟩

/-! ## The step of `EMIT_OR_RESYNC` -/

theorem internalStep_emitOrResync_emit (m : Nat) {f : Framer} {fr : Frame}
    (hp : f.phase = .emitOrResync) (hlen : f.flen.toNat ≤ f.buf.length)
    (hd : decodeFrame (f.buf.take f.flen.toNat) = .ok fr) :
    internalStep m f =
      .ok ({ f with buf := f.buf.drop f.flen.toNat, phase := .seekStart }, .emit fr) := by
  simp only [internalStep, hp, emitOrResyncStep, bufHead_of_le hlen, hd, bufDrop_of_le hlen]

theorem internalStep_emitOrResync_resync (m : Nat) {f : Framer} {e : FrameError}
    (hp : f.phase = .emitOrResync) (hlen : f.flen.toNat ≤ f.buf.length) (hne : f.buf ≠ [])
    (hd : decodeFrame (f.buf.take f.flen.toNat) = .error e) :
    internalStep m f =
      .ok ({ f with buf := f.buf.drop 1, phase := .seekStart }, .resync e) := by
  simp only [internalStep, hp, emitOrResyncStep, bufHead_of_le hlen, hd]
  exact resync_ok_iff.mpr ⟨List.length_pos_iff.mpr hne, rfl, rfl⟩

/-- Inside a push the candidate is of the declared length, at least `MIN_LEN`, and begins with START:
of the causes of `MalformedHeader` only a wrong STOP byte is left (rule R116). -/
theorem decodeFrame_malformed_iff_of_midPush {m : Nat} {f : Framer}
    (hp : f.phase = .emitOrResync) (hf : MidPush m f) :
    decodeFrame (f.buf.take f.flen.toNat) = .error .malformedHeader ↔
      (f.buf.take f.flen.toNat).getD (f.flen.toNat - 1) 0#8 ≠ STOP := by
  obtain ⟨-, hcand⟩ := hf
  simp only [hp] at hcand
  obtain ⟨-, hstart, hflen, hmin, hlen⟩ := hcand
  have hsize : (f.buf.take f.flen.toNat).length = f.flen.toNat := List.length_take_of_le hlen
  have hsizeOk : sizeOk (f.buf.take f.flen.toNat) := by simpa [sizeOk, hsize] using hmin
  have hfield : lenField (f.buf.take f.flen.toNat) = f.flen := by
    rw [lenField, fieldAt, byteAt, byteAt, getD_take (by omega), getD_take (by omega)]
    exact hflen.symm
  have hlengthOk : lengthOk (f.buf.take f.flen.toNat) := by simp [lengthOk, hfield, hlen]
  have hfirst : byteAt (f.buf.take f.flen.toNat) 0 = START :=
    (getD_take (by omega)).trans hstart
  have hdelims : delimitersOk (f.buf.take f.flen.toNat) ↔
      (f.buf.take f.flen.toNat).getD (f.flen.toNat - 1) 0#8 = STOP := by
    rw [delimitersOk, hfirst, hsize, beq_self_eq_true, Bool.true_and, beq_iff_eq, byteAt]
  rw [decodeFrame_malformed_iff, hdelims]
  simp only [hsizeOk, hlengthOk, true_and, and_true, ne_eq]

/-- Settles O26: the codec's answer on the candidate chooses the arm, and inside a push it is
`MalformedHeader` for a wrong STOP byte alone. -/
theorem emitOrResyncStepEmitsOrDropsOneByte : Obligations.EmitOrResyncStepEmitsOrDropsOneByte :=
  fun m _ hp hlen hne =>
    ⟨fun _ => internalStep_emitOrResync_emit m hp hlen,
      fun _ => internalStep_emitOrResync_resync m hp hlen hne,
      decodeFrame_malformed_iff_of_midPush hp⟩

/-! ## Chunks in order -/

@[simp] theorem framerResult_nil (c : Config) : framerResult c [] = .frames [] [] := by
  simp [framerResult, framesOf, diagsOf]

/-- The result of step results in a row is the concatenation of the parts' results (rule R96). -/
theorem framerResult_append {c : Config} {more : List StepResult} {rs : List Result}
    (trace : List StepResult) (h : framerResult c more = .frames (framesIn rs) (diagsIn rs)) :
    framerResult c (trace ++ more) =
      .frames (framesIn (framerResult c trace :: rs)) (diagsIn (framerResult c trace :: rs)) := by
  obtain ⟨hframes, hdiags⟩ := Result.frames.inj h
  cases hc : c.diag <;> simp_all [framerResult, framesIn, diagsIn]

theorem exec_frmFeed_of_feedBytes {bs : Bytes} {s : State} {g : Framer} {trace : List StepResult}
    (h : feedBytes s.config bs s.frm = .ok (g, trace)) :
    exec (.frmFeed bs) s = .next ((s.setFrm g).returning (framerResult s.config trace)) := by
  rw [exec_frmFeed, h, framerOutcome_ok]

theorem execAll_frmFeed_cons {bs : Bytes} {rest : List Instr} {s : State} {g : Framer}
    {trace : List StepResult} (h : feedBytes s.config bs s.frm = .ok (g, trace)) :
    execAll (.frmFeed bs :: rest) s =
      execAll rest ((s.setFrm g).returning (framerResult s.config trace)) := by
  rw [execAll, exec_frmFeed_of_feedBytes h]

/-- FRM.FEED of an empty chunk leaves the framer and returns the empty list (rules R52, R96). -/
theorem exec_frmFeed_nil (s : State) :
    exec (.frmFeed []) s = .next (s.returning (.frames [] [])) := by
  rw [exec_frmFeed_of_feedBytes (g := s.frm) (trace := []) rfl, framerResult_nil]
  rfl

/-- A push is the chunk of one byte (rule R96). -/
theorem feedBytes_singleton (c : Config) (b : Byte) (f : Framer) :
    feedBytes c [b] f = pushByte c b f := by
  unfold feedBytes
  cases pushByte c b f with
  | error e => rfl
  | ok p => simp [feedBytes]

theorem execAll_frmPush_eq_frmFeed (bs : Bytes) (s : State) :
    execAll (bs.map Instr.frmPush) s = execAll ((bs.map fun b => [b]).map Instr.frmFeed) s := by
  induction bs generalizing s with
  | nil => rfl
  | cons b rest ih =>
    have hpush : exec (.frmPush b) s = exec (.frmFeed [b]) s := by
      rw [exec_frmPush, exec_frmFeed, feedBytes_singleton]
    simp only [List.map_cons, execAll, hpush, ih]

/-- Chunks fed one after another from a quiescent framer write the framer alone, to where the whole
stream takes it, and return what the whole stream returns, chunk by chunk (rules R96, R102). -/
theorem execAll_frmFeed_of_quiescent (chunks : List Bytes) {s : State}
    (hq : Quiescent s.config.maxLen s.frm) :
    ∃ g trace rs, feedBytes s.config chunks.flatten s.frm = .ok (g, trace) ∧
      execAll (chunks.map Instr.frmFeed) s =
        .next { s with frm := g, results := s.results ++ rs } ∧
      framerResult s.config trace = .frames (framesIn rs) (diagsIn rs) := by
  induction chunks generalizing s with
  | nil => exact ⟨s.frm, [], [], rfl, by simp [execAll], framerResult_nil _⟩
  | cons chunk rest ih =>
    obtain ⟨g, trace, hchunk, hg⟩ := feedBytes_quiescent chunk hq
    obtain ⟨k, more, rs, hrest, hexec, hres⟩ :=
      ih (s := (s.setFrm g).returning (framerResult s.config trace)) hg
    refine ⟨k, trace ++ more, framerResult s.config trace :: rs, feedBytes_append hchunk hrest, ?_,
      framerResult_append trace hres⟩
    rw [List.map_cons, execAll_frmFeed_cons hchunk, hexec]
    simp [State.returning, State.setFrm]

/-- However a stream is cut, FRM.FEED of the whole reaches the state of its chunks fed in order, and
its result is the concatenation of theirs (rule R96). -/
theorem exec_frmFeed_flatten (chunks : List Bytes) {s : State}
    (hq : Quiescent s.config.maxLen s.frm) :
    ∃ u rs, execAll (chunks.map Instr.frmFeed) s = .next u ∧ u.results = s.results ++ rs ∧
      exec (.frmFeed chunks.flatten) s =
        .next { u with results := s.results ++ [.frames (framesIn rs) (diagsIn rs)] } := by
  obtain ⟨g, trace, rs, hfeed, hexec, hres⟩ := execAll_frmFeed_of_quiescent chunks hq
  refine ⟨_, rs, hexec, rfl, ?_⟩
  rw [exec_frmFeed_of_feedBytes hfeed, hres]
  rfl

/-! ## The worked example of rule R96 -/

/-- The PING frame of the worked example. -/
def pingFrame : Frame where
  start := 0x68#8
  length := 0x000B#16
  dest := 0x0001#16
  src := 0x0000#16
  cmd := 0x09#8
  data := []
  crc := 0xE335#16
  stop := 0x16#8

/-- The first chunk ends with the LEN field, so the body is awaited. -/
theorem feedBytes_ping_header :
    feedBytes Config.suggested [0x68#8, 0x0B#8, 0x00#8] Framer.reset =
      .ok ({ phase := .accumulateBody, buf := [0x68#8, 0x0B#8, 0x00#8], flen := 0x000B#16 },
        [.progress, .wait, .wait, .progress, .wait]) := by
  decide +kernel

/-- The second chunk leaves the candidate two bytes short. -/
theorem feedBytes_ping_body :
    feedBytes Config.suggested [0x01#8, 0x00#8, 0x00#8, 0x00#8, 0x09#8, 0x35#8]
        { phase := .accumulateBody, buf := [0x68#8, 0x0B#8, 0x00#8], flen := 0x000B#16 } =
      .ok ({ phase := .accumulateBody,
             buf := [0x68#8, 0x0B#8, 0x00#8, 0x01#8, 0x00#8, 0x00#8, 0x00#8, 0x09#8, 0x35#8],
             flen := 0x000B#16 },
        [.wait, .wait, .wait, .wait, .wait, .wait]) := by
  decide +kernel

/-- The last byte completes the candidate, and the frame is emitted. -/
theorem feedBytes_ping_end :
    feedBytes Config.suggested [0xE3#8, 0x16#8]
        { phase := .accumulateBody,
          buf := [0x68#8, 0x0B#8, 0x00#8, 0x01#8, 0x00#8, 0x00#8, 0x00#8, 0x09#8, 0x35#8],
          flen := 0x000B#16 } =
      .ok ({ phase := .seekStart, buf := [], flen := 0x000B#16 },
        [.wait, .progress, .emit pingFrame, .wait]) := by
  decide +kernel

theorem execAll_ping_chunks :
    execAll [.frmFeed [0x68#8, 0x0B#8, 0x00#8],
        .frmFeed [0x01#8, 0x00#8, 0x00#8, 0x00#8, 0x09#8, 0x35#8], .frmFeed [0xE3#8, 0x16#8]]
        State.reset =
      .next { State.reset with
        frm := { phase := .seekStart, buf := [], flen := 0x000B#16 }
        results := [.frames [] [], .frames [] [], .frames [pingFrame] []] } := by
  refine Eq.trans (execAll_frmFeed_cons feedBytes_ping_header) ?_
  refine Eq.trans (execAll_frmFeed_cons feedBytes_ping_body) ?_
  refine Eq.trans (execAll_frmFeed_cons feedBytes_ping_end) ?_
  rfl

/-- Settles O30: pushes are chunks of one byte, and both they and a chunk cut in two are the stream
fed in chunks. -/
theorem feedIsItsPushesInOrder : Obligations.FeedIsItsPushesInOrder := by
  refine ⟨fun bs s hq => ?_, exec_frmFeed_nil, fun a b s hq => ?_, execAll_ping_chunks⟩
  · have hflat : (bs.map fun b => [b]).flatten = bs := by
      rw [← List.flatMap_def, List.flatMap_singleton']
    rw [execAll_frmPush_eq_frmFeed]
    simpa only [hflat] using exec_frmFeed_flatten (bs.map fun b => [b]) hq
  · simpa using exec_frmFeed_flatten [a, b] hq

end Sys2Proof.Machine
end

section
/-! PROOFS. The error `CRCMismatch` (60_exceptions.md rule R117): the checks of `decode` on the bytes of
a range, and the one phase of the framer that raises it. -/

namespace Sys2Proof.Machine

/-! ## The checks of `decode`, byte by byte (rule R77) -/

theorem sizeOk_iff {r : Bytes} : sizeOk r ↔ 11 ≤ r.length := by
  simp [sizeOk]

theorem delimitersOk_iff {r : Bytes} :
    delimitersOk r ↔ r.getD 0 0#8 = 0x68#8 ∧ r.getD (r.length - 1) 0#8 = 0x16#8 := by
  simp only [delimitersOk, byteAt, Bool.and_eq_true, beq_iff_eq, START, STOP]

theorem lengthOk_iff {r : Bytes} :
    lengthOk r ↔ (r.getD 1 0#8).toNat + 256 * (r.getD 2 0#8).toNat = r.length := by
  rw [lengthOk, beq_iff_eq, lenField, fieldAt, le16_toNat, byteAt, byteAt]

theorem coveredRange_eq (r : Bytes) : coveredRange r = r.take (r.length - 3) := rfl

/-- The stored CRC stands at the offsets `n-3` and `n-2`, low byte first (rules R40, R27). -/
theorem crcField_toNat {r : Bytes} (h : 3 ≤ r.length) :
    (crcField r).toNat =
      (r.getD (r.length - 3) 0#8).toNat + 256 * (r.getD (r.length - 2) 0#8).toNat := by
  have hhigh : r.length - 3 + 1 = r.length - 2 := by omega
  rw [crcField, fieldAt, le16_toNat, byteAt, byteAt, hhigh]

theorem crcOk_eq_false_iff {r : Bytes} (h : 3 ≤ r.length) :
    crcOk r = false ↔
      (crc16 (r.take (r.length - 3))).toNat ≠
        (r.getD (r.length - 3) 0#8).toNat + 256 * (r.getD (r.length - 2) 0#8).toNat := by
  rw [crcOk, beq_eq_false_iff_ne, ← crcField_toNat h, coveredRange_eq, ne_eq, ne_eq,
    BitVec.toNat_inj]

/-! ## The cause of `CRCMismatch` (rule R117) -/

/-- `CRCMismatch` is the failure of the last check alone (rule R121); the size check keeps the offsets
of the stored CRC inside the range. -/
theorem decodeFrame_crcMismatch_iff_bytes {r : Bytes} :
    decodeFrame r = .error .crcMismatch ↔
      (11 ≤ r.length ∧ r.getD 0 0#8 = 0x68#8 ∧ r.getD (r.length - 1) 0#8 = 0x16#8 ∧
        (r.getD 1 0#8).toNat + 256 * (r.getD 2 0#8).toNat = r.length) ∧
      (crc16 (r.take (r.length - 3))).toNat ≠
        (r.getD (r.length - 3) 0#8).toNat + 256 * (r.getD (r.length - 2) 0#8).toNat := by
  rw [decodeFrame_crcMismatch_iff, sizeOk_iff, delimitersOk_iff, lengthOk_iff,
    and_assoc (b := _ = 0x16#8)]
  exact and_congr_right fun hheader => crcOk_eq_false_iff (by omega)

/-- All that a resync can be: `READ_LENGTH` rejecting a length, whose kind is `MalformedHeader`
(rule R92), or `EMIT_OR_RESYNC` with the codec's own error (rule R94). -/
theorem internalStep_resync_cases {m : Nat} {f g : Framer} {k : FrameError}
    (h : internalStep m f = .ok (g, .resync k)) :
    (f.phase = .readLength ∧ 3 ≤ f.buf.length ∧ lengthInRange m (lenField f.buf) = false ∧
      k = .malformedHeader) ∨
    (f.phase = .emitOrResync ∧ f.flen.toNat ≤ f.buf.length ∧
      decodeFrame (f.buf.take f.flen.toNat) = .error k) := by
  rcases internalStep_cases h with
    ⟨-, _, -, -, ⟨⟩⟩ | ⟨-, -, -, ⟨⟩⟩ | ⟨-, -, -, ⟨⟩⟩ | ⟨hp, hlen, hrange, -, ⟨⟩⟩ |
    ⟨-, -, -, -, ⟨⟩⟩ | ⟨-, -, -, ⟨⟩⟩ | ⟨-, -, -, ⟨⟩⟩ | ⟨-, -, _, -, -, ⟨⟩⟩ |
    ⟨hp, hlen, -, _, hd, -, ⟨⟩⟩
  · exact .inl ⟨hp, hlen, hrange, rfl⟩
  · exact .inr ⟨hp, hlen, hd⟩

theorem phase_of_resync_crcMismatch {m : Nat} {f g : Framer}
    (h : internalStep m f = .ok (g, .resync .crcMismatch)) : f.phase = .emitOrResync := by
  obtain ⟨-, -, -, ⟨⟩⟩ | ⟨hp, -, -⟩ := internalStep_resync_cases h
  exact hp

/-- Settles O18: the last check of `decode` on the bytes of the range, and the two resyncs of the
framer's transition table. -/
theorem crcMismatchHasOneCause : Obligations.CrcMismatchHasOneCause :=
  ⟨fun _ => decodeFrame_crcMismatch_iff_bytes, fun _ _ _ => phase_of_resync_crcMismatch⟩

end Sys2Proof.Machine
end

section
/-! PROOFS. Transactions (30_encoding.md rules R48, R49, R50): the decoder and the encoder of operations
undo each other, and a step takes the instruction that the decoder reads. -/

namespace Sys2Proof.Machine

/-! ## Selection -/

/-- Every row compares the whole selection byte with the code of its operation (rule R51). -/
theorem opTable_rows : ∀ row ∈ opTable, row.mask = 0xFF#8 ∧ row.pattern = row.op.sel := by decide

theorem opRow_selects_iff {row : OpRow} (h : row ∈ opTable) (sel : Byte) :
    row.selects sel = true ↔ row.pattern = sel := by
  have hall : sel &&& 0xFF#8 = sel := BitVec.and_allOnes
  rw [OpRow.selects, (opTable_rows row h).1, hall, beq_iff_eq, eq_comm]

/-- A byte selects an operation exactly when it is that operation's code (rule R48). -/
theorem selectOp_eq_some_iff {sel : Byte} {op : OpCode} : selectOp sel = some op ↔ sel = op.sel := by
  constructor
  · intro h
    obtain ⟨row, hrow, rfl⟩ := Option.map_eq_some_iff.mp h
    have hmem := List.mem_of_find?_eq_some hrow
    rw [← (opTable_rows row hmem).2]
    exact ((opRow_selects_iff hmem sel).mp (by simpa using List.find?_some hrow)).symm
  · rintro rfl
    exact selectOp_sel op

/-- No byte selects two rows, since no two rows have one pattern (rule R48). -/
theorem opTable_filter_selects_length (sel : Byte) :
    (opTable.filter (·.selects sel)).length ≤ 1 := by
  have hnodup : (opTable.map (·.pattern)).Nodup := by decide
  have hsel : ∀ row ∈ opTable, row.selects sel = (row.pattern == sel) := fun row hrow => by
    rw [Bool.eq_iff_iff, opRow_selects_iff hrow, beq_iff_eq]
  calc (opTable.filter (·.selects sel)).length
      = (opTable.map (·.pattern)).count sel := by
        rw [List.filter_congr hsel, ← List.countP_eq_length_filter, List.count, List.countP_map]; rfl
    _ ≤ 1 := List.nodup_iff_count_le_one.mp hnodup sel

/-- The codes are 1 to 9, so every other byte is reserved (rule R50). -/
theorem selectOp_reserved {sel : Byte} (h : sel.toNat = 0 ∨ 9 < sel.toNat) :
    selectOp sel = none := by
  rw [Option.eq_none_iff_forall_ne_some]
  intro op hop
  rw [selectOp_eq_some_iff.mp hop] at h
  revert h
  cases op <;> decide

theorem decodeOp_reserved {sel : Byte} (bs : Bytes) (h : selectOp sel = none) :
    decodeOp (sel :: bs) = .error (.reserved sel) := by
  simp only [decodeOp, h]

/-! ## Reading back an encoded operation -/

theorem decodeOp_sel {op : OpCode} {bs : Bytes} {r : Instr × Bytes}
    (h : decodeOperands op bs = some r) : decodeOp (op.sel :: bs) = .ok r := by
  simp only [decodeOp, selectOp_sel, h]

/-- The decoder reads an operation's operands back, one by one, in the order of rule R49. -/
theorem decodeOp_encode {i : Instr} (hwf : WellFormed i = true) {bs : Bytes} (h : encode i = .ops bs)
    (more : Bytes) : decodeOp (bs ++ more) = .ok (i, more) := by
  cases i <;> cases h <;> apply decodeOp_sel
  case crcClr => rfl
  case crcUpd => rfl
  case crcRd => rfl
  case crcCompute s =>
    have hlen : s.length ≤ 65535 := of_decide_eq_true hwf
    simp [decodeOperands, hlen]
  case crcVerify s e =>
    have hlen : s.length ≤ 65535 := of_decide_eq_true hwf
    simp [decodeOperands, hlen]
  case encReq dest src cmd payload =>
    have hlen : payload.length ≤ 65535 := of_decide_eq_true hwf
    simp [decodeOperands, hlen]
  case decFrame r =>
    have hlen : r.length ≤ 65535 := of_decide_eq_true hwf
    simp [decodeOperands, hlen]
  case frmPush => rfl
  case frmRst => rfl

/-! ## Reading back a wire candidate -/

theorem decodeTraffic_of_wireFrame {bs : Bytes} {r : Instr × Bytes} (h : wireFrame bs = some r) :
    decodeTraffic bs = .ok r := by
  cases bs with
  | nil => cases h
  | cons b rest => simp only [decodeTraffic, h]

theorem decodeTraffic_wireBytes {len dest src : U16} {cmd : Byte} {tail : Bytes} {k : WireKind}
    (htail : tailFits len tail = true)
    (hk : (if cmd = CMD_READ_REQ then .readReq else if cmd = CMD_READ_RESP then .readResp
        else if cmd = CMD_WRITE_REQ then .writeReq else if cmd = CMD_PING then .ping
        else .frame) = k) (more : Bytes) :
    decodeTraffic (wireBytes len dest src cmd tail ++ more) =
      .ok (k.instr len dest src cmd tail, more) :=
  decodeTraffic_of_wireFrame (wireFrame_wireBytes (of_decide_eq_true htail) more
    ((selectWire_of_start _ _ _ _ _ _ cmd).trans (congrArg some hk)))

/-- The decoder reads a whole candidate back, the row chosen by CMD (rules R44, R51). -/
theorem decodeTraffic_encode {i : Instr} (hwf : WellFormed i = true) {bs : Bytes}
    (h : encode i = .rxTraffic bs) (more : Bytes) : decodeTraffic (bs ++ more) = .ok (i, more) := by
  cases i <;> cases h
  case readReq => exact decodeTraffic_wireBytes hwf (k := .readReq) rfl more
  case readResp => exact decodeTraffic_wireBytes hwf (k := .readResp) rfl more
  case writeReq => exact decodeTraffic_wireBytes hwf (k := .writeReq) rfl more
  case ping => exact decodeTraffic_wireBytes hwf (k := .ping) rfl more
  case frame cmd tail =>
    obtain ⟨htail, hcmd⟩ := Bool.and_eq_true_iff.mp hwf
    have hrow : cmd ≠ CMD_READ_REQ ∧ cmd ≠ CMD_READ_RESP ∧ cmd ≠ CMD_WRITE_REQ ∧ cmd ≠ CMD_PING := by
      simpa [namedCmd, and_assoc] using hcmd
    exact decodeTraffic_wireBytes htail (k := .frame) (by simp [hrow]) more

/-! ## Items -/

theorem decode_ops_of_decodeOp {bs : Bytes} {i : Instr} (h : decodeOp bs = .ok (i, [])) :
    decode (.ops bs) = .ok (i, none) := by
  simp only [decode, h]; rfl

theorem decode_rxTraffic_of_decodeTraffic {bs : Bytes} {i : Instr}
    (h : decodeTraffic bs = .ok (i, [])) : decode (.rxTraffic bs) = .ok (i, none) := by
  simp only [decode, h]; rfl

theorem eq_frmFeed_of_encode {i : Instr} {chunk : Bytes} (h : encode i = .rxRead chunk) :
    i = .frmFeed chunk := by
  cases i <;> cases h
  rfl

/-- No encoding is a transaction, which carries values instead (rule R21). -/
theorem encode_ne_transaction (i : Instr) (t : Transaction) : encode i ≠ .transaction t := by
  cases i <;> simp [encode]

/-- Settles O58: by the port that the encoding comes by, the operands and the wire candidate read
back; a chunk is decoded whole. -/
theorem decodeOfEncodeIsTheInstruction : Obligations.DecodeOfEncodeIsTheInstruction := by
  intro i hwf
  refine ⟨?_, fun more => ⟨fun bs h => decodeOp_encode hwf h more,
    fun bs h => decodeTraffic_encode hwf h more⟩⟩
  cases henc : encode i with
  | transaction t => exact absurd henc (encode_ne_transaction i t)
  | ops bs => exact decode_ops_of_decodeOp (by simpa using decodeOp_encode hwf henc [])
  | rxRead chunk => rw [eq_frmFeed_of_encode henc]; rfl
  | rxTraffic bs =>
    exact decode_rxTraffic_of_decodeTraffic (by simpa using decodeTraffic_encode hwf henc [])

/-! ## What an operation was read from -/

theorem takeByte_some {bs rest : Bytes} {b : Byte} (h : takeByte bs = some (b, rest)) :
    bs = b :: rest := by
  cases bs with
  | nil => cases h
  | cons => cases h; rfl

/-- The operands of an operation were read from their encoding, and a count of 16 bits held every
sequence among them. -/
theorem decodeOperands_some {op : OpCode} {bs more : Bytes} {i : Instr}
    (h : decodeOperands op bs = some (i, more)) :
    WellFormed i = true ∧ ∃ taken, encode i = .ops (op.sel :: taken) ∧ bs = taken ++ more := by
  cases op <;>
    simp only [decodeOperands, Option.map_eq_some_iff, Option.bind_eq_some_iff, Option.some.injEq,
      Prod.exists, Prod.mk.injEq] at h
  case crcClr => obtain ⟨rfl, rfl⟩ := h; exact ⟨rfl, [], rfl, rfl⟩
  case crcUpd =>
    obtain ⟨b, rest, hb, rfl, rfl⟩ := h
    exact ⟨rfl, [b], rfl, takeByte_some hb⟩
  case crcRd => obtain ⟨rfl, rfl⟩ := h; exact ⟨rfl, [], rfl, rfl⟩
  case crcCompute =>
    obtain ⟨s, rest, hs, rfl, rfl⟩ := h
    obtain ⟨hlen, rfl⟩ := takeCounted_some hs
    exact ⟨decide_eq_true hlen, _, rfl, rfl⟩
  case crcVerify =>
    obtain ⟨s, rest, hs, e, rest', he, rfl, rfl⟩ := h
    obtain ⟨hlen, rfl⟩ := takeCounted_some hs
    obtain rfl := takeU16_some he
    exact ⟨decide_eq_true hlen, _, rfl, (List.append_assoc _ _ _).symm⟩
  case encReq =>
    obtain ⟨dest, _, hdest, src, _, hsrc, cmd, _, hcmd, payload, _, hpayload, rfl, rfl⟩ := h
    obtain rfl := takeU16_some hdest
    obtain rfl := takeU16_some hsrc
    obtain rfl := takeByte_some hcmd
    obtain ⟨hlen, rfl⟩ := takeCounted_some hpayload
    exact ⟨decide_eq_true hlen, _, rfl, by simp⟩
  case decFrame =>
    obtain ⟨s, rest, hs, rfl, rfl⟩ := h
    obtain ⟨hlen, rfl⟩ := takeCounted_some hs
    exact ⟨decide_eq_true hlen, _, rfl, rfl⟩
  case frmPush =>
    obtain ⟨b, rest, hb, rfl, rfl⟩ := h
    exact ⟨rfl, [b], rfl, takeByte_some hb⟩
  case frmRst => obtain ⟨rfl, rfl⟩ := h; exact ⟨rfl, [], rfl, rfl⟩

/-- What the decoder of operations took apart: a selection byte and its operands. -/
theorem decodeOp_ok {bs more : Bytes} {i : Instr} (h : decodeOp bs = .ok (i, more)) :
    ∃ op rest, bs = op.sel :: rest ∧ decodeOperands op rest = some (i, more) := by
  unfold decodeOp at h
  split at h
  · cases h
  · split at h
    · cases h
    · rename_i op hop
      split at h
      · rename_i r hr
        cases h
        exact ⟨op, _, congrArg (· :: _) (selectOp_eq_some_iff.mp hop), hr⟩
      · cases h

/-- Settles O59: the selection byte is the operation's code, and the operands were read from their
encoding. -/
theorem decodedOperationIsItsEncoding : Obligations.DecodedOperationIsItsEncoding := by
  intro bs more i h
  obtain ⟨op, rest, rfl, hoperands⟩ := decodeOp_ok h
  obtain ⟨hwf, taken, henc, rfl⟩ := decodeOperands_some hoperands
  exact ⟨hwf, op.sel :: taken, henc, rfl⟩

/-! ## Sample words -/

/-- The frame `A` of 95_test_vectors.md in traffic is the encoding of a READ_REQ. -/
theorem decodeTraffic_frameA :
    decodeTraffic [0x68#8, 0x0E#8, 0x00#8, 0x01#8, 0x00#8, 0x64#8, 0x00#8, 0x02#8, 0x01#8, 0x00#8,
        0x00#8, 0xE7#8, 0xB1#8, 0x16#8] =
      .ok (.readReq 0x000E#16 0x0001#16 0x0064#16
        [0x01#8, 0x00#8, 0x00#8, 0xE7#8, 0xB1#8, 0x16#8], []) :=
  decodeTraffic_encode (i := .readReq 0x000E#16 0x0001#16 0x0064#16
    [0x01#8, 0x00#8, 0x00#8, 0xE7#8, 0xB1#8, 0x16#8]) (by decide) rfl []

/-- Settles O57: the table's rows compare the whole byte, and each sample word is the encoding of the
instruction it stands for. -/
theorem selectionCodesAndSampleWordsDecode : Obligations.SelectionCodesAndSampleWordsDecode :=
  ⟨fun _ _ => selectOp_eq_some_iff, opTable_filter_selects_length,
    decodeOp_encode (i := .crcUpd 0x31#8) rfl rfl [],
    decodeOp_encode (i := .crcVerify [0x41#8, 0x42#8] 0x567B#16) (by decide) rfl [],
    decodeOp_encode (i := .encReq 0x0020#16 0x0064#16 0x02#8 [0x01#8, 0x07#8, 0x00#8]) (by decide)
      rfl [],
    decodeOp_encode (i := .frmPush 0x68#8) rfl rfl [0x09#8], decodeTraffic_frameA⟩

/-! ## Steps -/

/-- An item that decodes to an operation holds one. -/
theorem itemSpent_of_decode {item : PortItem} {r : Instr × Option PortItem}
    (h : decode item = .ok r) : itemSpent item = false := by
  cases item with
  | transaction => rfl
  | rxRead => rfl
  | ops bs => cases bs with
    | nil => cases h
    | cons => rfl
  | rxTraffic bs => cases bs with
    | nil => cases h
    | cons => rfl

theorem step_of_decode {s : State} {item : PortItem} {rest : List HostEvent} {i : Instr}
    {left : Option PortItem} (hin : s.input = .offer item :: rest)
    (hdec : decode item = .ok (i, left)) : step s = exec i (s.setInput (pending left rest)) :=
  step_of_fetch_run (by simp [fetch, hin, itemSpent_of_decode hdec, hdec])

theorem pending_eq (left : Option PortItem) (rest : List HostEvent) :
    pending left rest = (left.map HostEvent.offer).toList ++ rest := by
  cases left <;> rfl

/-- Every primitive operation can be issued as a transaction; the other instructions are bytes at `RX`
(rules R21, R51). -/
theorem transaction_or_rx (i : Instr) :
    (∃ t : Transaction, t.instr = i) ∨ ∃ bs, encode i = .rxRead bs ∨ encode i = .rxTraffic bs := by
  cases i with
  | crcClr => exact .inl ⟨.crcClr, rfl⟩
  | crcUpd b => exact .inl ⟨.crcUpd b, rfl⟩
  | crcRd => exact .inl ⟨.crcRd, rfl⟩
  | crcCompute s => exact .inl ⟨.crcCompute s, rfl⟩
  | crcVerify s e => exact .inl ⟨.crcVerify s e, rfl⟩
  | encReq dest src cmd payload => exact .inl ⟨.encReq dest src cmd payload, rfl⟩
  | decFrame r => exact .inl ⟨.decFrame r, rfl⟩
  | frmPush b => exact .inl ⟨.frmPush b, rfl⟩
  | frmRst => exact .inl ⟨.frmRst, rfl⟩
  | frmFeed s => exact .inr ⟨s, .inl rfl⟩
  | readReq | readResp | writeReq | ping | frame => exact .inr ⟨_, .inr rfl⟩

/-- Settles O54: a step by what is fetched; a transaction's instruction is its own. -/
theorem stepRunsTheDecodedInstruction : Obligations.StepRunsTheDecodedInstruction := by
  refine ⟨fun s item rest i left hin hdec => ?_, fun s t rest hin => step_transaction hin,
    transaction_or_rx, fun s bs rest hin => ?_, fun s hin => ?_⟩
  · rw [step_of_decode hin hdec, pending_eq]; rfl
  · rw [step_transaction hin]; exact exec_crcCompute bs _
  · simp [step, fetch, hin]

/-- Settles O55: the reset event is fetched, and writes the four pieces of state. -/
theorem resetEventRestoresResetValues : Obligations.ResetEventRestoresResetValues := by
  intro s rest hin
  have hfetch : fetch s = .reset rest := by simp only [fetch, hin]
  rw [step_of_fetch_reset hfetch]; rfl

/-- Settles O56: a reserved byte selects no row, and the step names it. -/
theorem reservedSelectionIsRefused : Obligations.ReservedSelectionIsRefused := by
  intro s sel bs rest hin hres
  have hdec := decodeOp_reserved bs (selectOp_reserved hres)
  simp [step, fetch, hin, itemSpent, decode, hdec, Except.map, refusalOf]

end Sys2Proof.Machine
end

section
/-! PROOFS. The algebra of the CRC (40_crc.md section 4): `crc_byte` is linear and one-to-one, and equals
its table and its bit-serial form; the serial port of the CRC Engine (section 3). -/

namespace Sys2Proof.Machine

/-! ## Linearity (rule R69 item 3) -/

/-- What a shift XORs in for the bit it shifts out (rule R60). -/
def polyIf (bit : Bool) : U16 := if bit then POLY else 0x0000#16

theorem polyIf_xor : ∀ a b : Bool, polyIf (a ^^ b) = polyIf a ^^^ polyIf b := by decide

/-- `POLY` is odd: its low bit says whether it was XORed in. -/
theorem polyIf_getLsbD_zero : ∀ bit : Bool, (polyIf bit).getLsbD 0 = bit := by decide

theorem crcShift_eq (t : U16) : crcShift t = t <<< 1 ^^^ polyIf (t.getLsbD 15) := by
  rw [crcShift]
  generalize t.getLsbD 15 = bit
  cases bit <;> simp [polyIf]

theorem crcShift_xor (x y : U16) : crcShift (x ^^^ y) = crcShift x ^^^ crcShift y := by
  rw [crcShift_eq, crcShift_eq, crcShift_eq, BitVec.shiftLeft_xor_distrib, BitVec.getLsbD_xor,
    polyIf_xor]
  ac_rfl

theorem crcShifts_xor (n : Nat) (x y : U16) :
    crcShifts n (x ^^^ y) = crcShifts n x ^^^ crcShifts n y := by
  induction n generalizing x y with
  | zero => rfl
  | succ n ih => simp only [crcShifts, crcShift_xor, ih]

theorem crcByte_xor (c1 c2 : U16) (b1 b2 : Byte) :
    crcByte (c1 ^^^ c2) (b1 ^^^ b2) = crcByte c1 b1 ^^^ crcByte c2 b2 := by
  rw [crcByte, crcByte, crcByte, ← crcShifts_xor, BitVec.setWidth_xor, BitVec.shiftLeft_xor_distrib]
  congr 1
  ac_rfl

theorem crcFold_xor {s t : Bytes} (h : s.length = t.length) (c d : U16) :
    crcFold (c ^^^ d) (List.zipWith (· ^^^ ·) s t) = crcFold c s ^^^ crcFold d t := by
  induction s generalizing t c d with
  | nil => cases t with
    | nil => rfl
    | cons => cases h
  | cons a s ih => cases t with
    | nil => cases h
    | cons b t =>
      have hstep := ih (Nat.succ.inj h) (crcByte c a) (crcByte d b)
      rwa [← crcByte_xor] at hstep

/-- Settles O9: one byte, then induction along the two sequences. -/
theorem crcIsLinear : Obligations.CrcIsLinear :=
  ⟨crcByte_xor, fun _ _ h => crcFold_xor h CRC_INIT CRC_INIT⟩

/-! ## One-to-one -/

theorem crcShift_getLsbD_zero (t : U16) : (crcShift t).getLsbD 0 = t.getLsbD 15 := by
  rw [crcShift_eq, BitVec.getLsbD_xor, polyIf_getLsbD_zero, BitVec.getLsbD_shiftLeft]
  simp

theorem crcShift_of_top_clear {t : U16} (h : t.getLsbD 15 = false) : crcShift t = t <<< 1 := by
  rw [crcShift_eq, h]; simp [polyIf]

/-- A result of zero means that no 1 was shifted out, and that none is left below the top bit. -/
theorem eq_zero_of_crcShift_eq_zero {t : U16} (h : crcShift t = 0x0000#16) : t = 0x0000#16 := by
  have htop : t.getLsbD 15 = false := by rw [← crcShift_getLsbD_zero, h]; rfl
  rw [crcShift_of_top_clear htop] at h
  apply BitVec.eq_of_getLsbD_eq
  intro i hi
  rcases Nat.lt_or_eq_of_le (Nat.le_of_lt_succ hi) with hlow | rfl
  · have hbit := congrArg (·.getLsbD (i + 1)) h
    have hlt : i + 1 < 16 := by omega
    simpa [hlt, hi] using hbit
  · rw [htop]; rfl

theorem eq_zero_of_crcShifts_eq_zero {n : Nat} {t : U16} (h : crcShifts n t = 0x0000#16) :
    t = 0x0000#16 := by
  induction n generalizing t with
  | zero => exact h
  | succ n ih => exact eq_zero_of_crcShift_eq_zero (ih h)

/-- By linearity, equal results come of equal values. -/
theorem crcShifts_inj {n : Nat} {x y : U16} (h : crcShifts n x = crcShifts n y) : x = y := by
  have hzero : crcShifts n (x ^^^ y) = 0x0000#16 := by rw [crcShifts_xor, h, BitVec.xor_self]
  exact BitVec.xor_eq_zero_iff.mp (eq_zero_of_crcShifts_eq_zero hzero)

theorem crcByte_inj_left {c d : U16} {b : Byte} (h : crcByte c b = crcByte d b) : c = d :=
  (BitVec.xor_left_inj _).mp (crcShifts_inj h)

theorem crcByte_inj_right {c : U16} {a b : Byte} (h : crcByte c a = crcByte c b) : a = b := by
  have htop : a.setWidth 16 <<< 8 = b.setWidth 16 <<< 8 :=
    (BitVec.xor_right_inj _).mp (crcShifts_inj h)
  apply BitVec.eq_of_getLsbD_eq
  intro i hi
  have hbit := congrArg (·.getLsbD (i + 8)) htop
  have hlt : i + 8 < 16 ∧ i < 16 := by omega
  simpa [hlt] using hbit

theorem crcFold_inj {s : Bytes} {c d : U16} (h : crcFold c s = crcFold d s) : c = d := by
  induction s generalizing c d with
  | nil => exact h
  | cons b s ih => exact crcByte_inj_left (ih h)

/-- Two sequences of which one byte differs have different CRCs. -/
theorem crc16_one_byte_inj {pre post : Bytes} {a b : Byte}
    (h : crc16 (pre ++ a :: post) = crc16 (pre ++ b :: post)) : a = b := by
  rw [crc16_append, crc16_append] at h
  exact crcByte_inj_right (crcFold_inj h)

/-! ## The table form (rule R70) -/

theorem lo8_eq_setWidth (v : U16) : lo8 v = v.setWidth 8 := by
  apply BitVec.eq_of_toNat_eq
  rw [lo8_toNat, BitVec.toNat_setWidth]

theorem hi8_eq_setWidth (v : U16) : hi8 v = (v >>> 8).setWidth 8 := by
  apply BitVec.eq_of_toNat_eq
  have hlt := v.isLt
  rw [hi8_toNat, BitVec.toNat_setWidth, BitVec.toNat_ushiftRight, Nat.shiftRight_eq_div_pow]
  omega

/-- A value is its low byte and, above it, its high byte. -/
theorem eq_lo8_xor_hi8 (c : U16) :
    c = (lo8 c).setWidth 16 ^^^ ((hi8 c).setWidth 16 <<< 8) := by
  rw [lo8_eq_setWidth, hi8_eq_setWidth]
  apply BitVec.eq_of_getLsbD_eq
  intro i hi
  by_cases hlow : i < 8
  · simp [hlow, hi]
  · have hback : 8 + (i - 8) = i ∧ i - 8 < 8 ∧ i - 8 < 16 := by omega
    simp [hlow, hi, hback]

theorem shiftLeft_eight_eq_lo8 (c : U16) : c <<< 8 = (lo8 c).setWidth 16 <<< 8 := by
  rw [lo8_eq_setWidth]
  apply BitVec.eq_of_getLsbD_eq
  intro i hi
  have hlt : i - 8 < 8 ∧ i - 8 < 16 := by omega
  simp [hi, hlt]

theorem hi8_shiftLeft_eight (c : U16) : hi8 (c <<< 8) = lo8 c := by
  rw [lo8_eq_setWidth, hi8_eq_setWidth]
  apply BitVec.eq_of_getLsbD_eq
  intro i hi
  have hlt : 8 + i < 16 ∧ i < 16 := by omega
  simp [hi, hlt]

/-- While no 1 reaches the top bit, shifts are plain shifts. -/
theorem crcShifts_of_lt {n : Nat} {t : U16} (h : t.toNat * 2 ^ n < 2 ^ 16) :
    crcShifts n t = t <<< n := by
  induction n generalizing t with
  | zero => simp [crcShifts]
  | succ n ih =>
    have hpow : 0 < 2 ^ n := Nat.two_pow_pos n
    have hprod : t.toNat * 2 ^ (n + 1) = t.toNat * 2 * 2 ^ n := by rw [Nat.pow_succ]; ac_rfl
    have hsmall : t.toNat * 2 < 2 ^ 16 :=
      Nat.lt_of_le_of_lt (Nat.le_mul_of_pos_right _ hpow) (hprod ▸ h)
    have htop : t.getLsbD 15 = false := by
      rw [BitVec.getLsbD, Nat.testBit_lt_two_pow (by omega)]
    have hdouble : (t <<< 1).toNat = t.toNat * 2 := by
      rw [BitVec.toNat_shiftLeft, Nat.shiftLeft_eq, Nat.pow_one, Nat.mod_eq_of_lt hsmall]
    rw [crcShifts, crcShift_of_top_clear htop, ih (by rw [hdouble, ← hprod]; exact h),
      ← BitVec.shiftLeft_add, Nat.add_comm]

/-- By linearity: the low byte only moves up, and the high byte and the byte fed meet at the
top of the register. -/
theorem crcByte_eq_table (c : U16) (b : Byte) :
    crcByte c b = (c <<< 8) ^^^ crcByte 0x0000#16 (hi8 c ^^^ b) := by
  have hlow : crcShifts 8 ((lo8 c).setWidth 16) = c <<< 8 := by
    have hlt : (lo8 c).toNat < 256 := (lo8 c).isLt
    rw [shiftLeft_eight_eq_lo8, crcShifts_of_lt]
    rw [BitVec.toNat_setWidth]
    omega
  have hsplit : c ^^^ (b.setWidth 16 <<< 8) =
      (lo8 c).setWidth 16 ^^^ (0x0000#16 ^^^ ((hi8 c ^^^ b).setWidth 16 <<< 8)) := by
    rw [BitVec.setWidth_xor, BitVec.shiftLeft_xor_distrib, BitVec.zero_xor, ← BitVec.xor_assoc,
      ← eq_lo8_xor_hi8]
  rw [crcByte, hsplit, crcShifts_xor, hlow, crcByte]

/-- Settles O12: the table form, and the listed entries computed. -/
theorem crcByteEqualsTableForm : Obligations.CrcByteEqualsTableForm :=
  ⟨crcByte_eq_table, by decide +kernel, by decide, by decide⟩

/-! ## The bit-serial form (rule R68) -/

/-- One step of the shift register, with the bit it takes (rule R68). -/
def serialShift (c : U16) (bit : Bool) : U16 :=
  if Bool.xor (c.getLsbD 15) bit then (c <<< 1) ^^^ 0x1021#16 else c <<< 1



theorem serialShift_eq (c : U16) (bit : Bool) :
    serialShift c bit = c <<< 1 ^^^ polyIf (c.getLsbD 15 ^^ bit) := by
  rw [serialShift]
  generalize (c.getLsbD 15 ^^ bit) = out
  cases out <;> simp [polyIf, POLY]

/-- A register that lacks the bits `r` still to come takes the first of them: it is one shift of the
full register, and lacks the others. -/
theorem serialShift_xor (t r : U16) :
    serialShift (t ^^^ r) (r.getLsbD 15) = crcShift t ^^^ r <<< 1 := by
  rw [serialShift_eq, crcShift_eq, BitVec.getLsbD_xor, Bool.xor_assoc, Bool.xor_self, Bool.xor_false,
    BitVec.shiftLeft_xor_distrib]
  ac_rfl

/-- The same, the bits to come being those of the byte from bit `k` down. -/
theorem serialShift_byte (t : U16) (b : Byte) {k : Nat} (hk : k < 8) :
    serialShift (t ^^^ b.setWidth 16 <<< (15 - k)) (b.getLsbD k) =
      crcShift t ^^^ b.setWidth 16 <<< (15 - k + 1) := by
  have hbit : (b.setWidth 16 <<< (15 - k)).getLsbD 15 = b.getLsbD k := by
    have hback : 15 - (15 - k) = k := by omega
    simp [hback]
  rw [← hbit, serialShift_xor, BitVec.shiftLeft_add]

/-- The bits of the byte from bit `k - 1` down, taken one at a time: the registers differ by the bits
still to come. -/
theorem serialShift_foldl (b : Byte) {k : Nat} (hk : k ≤ 8) (t : U16) :
    (List.range k).reverse.foldl (fun c j => serialShift c (b.getLsbD j))
        (t ^^^ b.setWidth 16 <<< (16 - k)) =
      crcShifts k t ^^^ b.setWidth 16 <<< 16 := by
  induction k generalizing t with
  | zero => rfl
  | succ k ih =>
    have hfirst : 16 - (k + 1) = 15 - k := by omega
    have hnext : 15 - k + 1 = 16 - k := by omega
    rw [List.range_succ, List.reverse_append, List.reverse_singleton, List.singleton_append,
      List.foldl_cons, hfirst, serialShift_byte t b hk, hnext, ih (Nat.le_of_succ_le hk)]
    rfl

/-- Settles O11: the byte entered at the top at once against its bits entered one at a time; after
eight shifts none is still to come. -/
theorem crcByteEqualsBitSerialForm : Obligations.CrcByteEqualsBitSerialForm := by
  intro c b
  have hstart : c = (c ^^^ b.setWidth 16 <<< 8) ^^^ b.setWidth 16 <<< (16 - 8) := by
    rw [BitVec.xor_assoc, BitVec.xor_self, BitVec.xor_zero]
  have hend : b.setWidth 16 <<< 16 = 0x0000#16 := BitVec.shiftLeft_eq_zero (Nat.le_refl 16)
  have hserial := serialShift_foldl b (Nat.le_refl 8) (c ^^^ b.setWidth 16 <<< 8)
  rw [← hstart, hend, BitVec.xor_zero] at hserial
  exact hserial.symm

/-! ## The register fed byte by byte (rule R65) -/

/-- A byte equal to the high byte of the register cancels it. -/
theorem crcByte_hi8 (c : U16) : crcByte c (hi8 c) = c <<< 8 := by
  rw [crcByte_eq_table, BitVec.xor_self, crcByte_zero_zero, BitVec.xor_zero]

/-- A value's own bytes, high byte first, clear the register. -/
theorem crcByte_hi8_lo8 (c : U16) : crcByte (crcByte c (hi8 c)) (lo8 c) = 0x0000#16 := by
  rw [crcByte_hi8, ← hi8_shiftLeft_eight, crcByte_hi8, ← BitVec.shiftLeft_add]
  exact BitVec.shiftLeft_eq_zero (Nat.le_refl 16)

/-- Settles O5: the execution rule of CRC.UPD, the two cancellations, and the worked values. -/
theorem crcUpdAdvancesRegister : Obligations.CrcUpdAdvancesRegister :=
  ⟨fun b s => exec_crcUpd b s, crcByte_hi8, crcByte_hi8_lo8, crcByte_zero_zero, by decide, by decide⟩

/-- Settles O10: `crc16` folds on over an append, and its own bytes then clear the register. -/
theorem crcResidueOfBigEndianTailIsZero : Obligations.CrcResidueOfBigEndianTailIsZero := by
  refine ⟨crc16_append, fun s => ?_⟩
  rw [crc16_append]
  exact crcByte_hi8_lo8 (crc16 s)

/-! ## The operations -/

/-- Settles O3: CRC.COMPUTE returns the CRC, and CRC.VERIFY compares with it. -/
theorem verifyAcceptsExactlyTheComputedValue : Obligations.VerifyAcceptsExactlyTheComputedValue := by
  intro bs e s t h
  rw [exec_crcCompute, Host.Outcome.next.injEq] at h
  refine ⟨crc16 bs, by rw [← h]; rfl, ?_, fun hne => ?_⟩
  · rw [exec_crcVerify, beq_self_eq_true]; rfl
  · rw [exec_crcVerify, beq_eq_false_iff_ne.mpr hne.symm]; rfl

/-- Settles O4: the execution rule of CRC.CLR. -/
theorem crcClrClearsRegister : Obligations.CrcClrClearsRegister := exec_crcClr

/-- Settles O6: the execution rule of CRC.RD, twice. -/
theorem crcRdReturnsRegister : Obligations.CrcRdReturnsRegister := by
  refine fun s => ⟨exec_crcRd s, ?_⟩
  simp [execAll, State.returning]

/-- CRC.UPD of each byte in turn folds the bytes into the register, before what comes after. -/
theorem execAll_crcUpd_append (bs : Bytes) (rest : List Instr) (s : State) :
    execAll (bs.map Instr.crcUpd ++ rest) s = execAll rest (s.setCrcReg (crcFold s.crcReg bs)) := by
  induction bs generalizing s with
  | nil => rfl
  | cons b bs ih => exact ih (s.setCrcReg (crcByte s.crcReg b))

/-- Settles O7: the register cleared, the bytes folded in, the register read. -/
theorem serialPortComputesCrc16 : Obligations.SerialPortComputesCrc16 := by
  intro bs s
  rw [execAll, exec_crcClr]
  exact execAll_crcUpd_append bs [.crcRd] (s.setCrcReg 0x0000#16)

end Sys2Proof.Machine
end

section
/-! PROOFS. The Frame Codec (41_codec.md): a range of frame size is a record's eight fields laid out in
order, and `decode` answers a record exactly for its wire form when it is valid (rules R78, R80, R81). -/

namespace Sys2Proof.Machine

/-! ## Laying out a record (rule R40) -/

/-- The bytes of a record that its CRC covers, its fields as they stand (rule R41). -/
def Frame.covered (f : Frame) : Bytes :=
  f.start :: (u16Bytes f.length ++ (u16Bytes f.dest ++ (u16Bytes f.src ++ (f.cmd :: f.data))))

/-- A record's eight fields in order, as they stand: the wire form of a valid record, and for any other
record a range that fails a check. -/
def Frame.layout (f : Frame) : Bytes := f.covered ++ (u16Bytes f.crc ++ [f.stop])

@[simp] theorem Frame.covered_length (f : Frame) : f.covered.length = 8 + f.data.length := by
  simp [Frame.covered]; omega

@[simp] theorem Frame.layout_length (f : Frame) : f.layout.length = 11 + f.data.length := by
  simp [Frame.layout]; omega

/-- A range no shorter than a smallest frame is some record laid out. -/
theorem exists_layout {r : Bytes} (h : 11 ≤ r.length) : ∃ f : Frame, r = f.layout := by
  obtain ⟨b0, l0, l1, d0, d1, s0, s1, c, rest, rfl⟩ :
      ∃ b0 l0 l1 d0 d1 s0 s1 c rest, r = b0 :: l0 :: l1 :: d0 :: d1 :: s0 :: s1 :: c :: rest := by
    match r, h with
    | b0 :: l0 :: l1 :: d0 :: d1 :: s0 :: s1 :: c :: rest, _ => exact ⟨_, _, _, _, _, _, _, _, _, rfl⟩
  have hrest : 3 ≤ rest.length := by simp only [List.length_cons] at h; omega
  obtain ⟨c0, c1, e, hend⟩ : ∃ c0 c1 e, rest.drop (rest.length - 3) = [c0, c1, e] :=
    List.length_eq_three.mp (by rw [List.length_drop]; omega)
  refine ⟨{ start := b0, length := le16 l0 l1, dest := le16 d0 d1, src := le16 s0 s1, cmd := c,
            data := rest.take (rest.length - 3), crc := le16 c0 c1, stop := e }, ?_⟩
  conv_lhs => rw [← List.take_append_drop (rest.length - 3) rest, hend]
  simp [Frame.layout, Frame.covered, u16Bytes]

/-! ## Reading a layout by offset -/

theorem byteAt_append_left {a b : Bytes} {k : Nat} (h : k < a.length) :
    byteAt (a ++ b) k = byteAt a k := by
  simp [byteAt, List.getD_eq_getElem?_getD, List.getElem?_append_left h]

theorem byteAt_append_right (a b : Bytes) (k : Nat) : byteAt (a ++ b) (a.length + k) = byteAt b k := by
  simp [byteAt, List.getD_eq_getElem?_getD, List.getElem?_append_right]

theorem fieldAt_append_left {a b : Bytes} {k : Nat} (h : k + 1 < a.length) :
    fieldAt (a ++ b) k = fieldAt a k := by
  rw [fieldAt, fieldAt, byteAt_append_left (by omega), byteAt_append_left h]

section
variable (f : Frame)

@[simp] theorem Frame.byteAt_layout_start : byteAt f.layout 0 = f.start := rfl

@[simp] theorem Frame.lenField_layout : lenField f.layout = f.length := le16_lo8_hi8 f.length

@[simp] theorem Frame.destField_layout : destField f.layout = f.dest := le16_lo8_hi8 f.dest

@[simp] theorem Frame.srcField_layout : srcField f.layout = f.src := le16_lo8_hi8 f.src

@[simp] theorem Frame.cmdField_layout : cmdField f.layout = f.cmd := rfl

@[simp] theorem Frame.coveredRange_layout : coveredRange f.layout = f.covered := by
  have hlen : f.layout.length - 3 = f.covered.length := by simp; omega
  rw [coveredRange_eq, hlen, Frame.layout, List.take_left]

@[simp] theorem Frame.dataField_layout : dataField f.layout = f.data := by
  have hcov : dataField f.layout = (coveredRange f.layout).drop 8 := rfl
  rw [hcov, Frame.coveredRange_layout]; rfl

@[simp] theorem Frame.crcField_layout : crcField f.layout = f.crc := by
  have hlen : f.layout.length - 3 = f.covered.length := by simp; omega
  rw [crcField, hlen, fieldAt, Frame.layout, ← Nat.add_zero f.covered.length, Nat.add_assoc,
    byteAt_append_right, byteAt_append_right]
  exact le16_lo8_hi8 f.crc

theorem Frame.byteAt_layout_stop : byteAt f.layout (f.layout.length - 1) = f.stop := by
  have hlen : f.layout.length - 1 = f.covered.length + 2 := by simp; omega
  rw [hlen, Frame.layout, byteAt_append_right]; rfl

end

/-! ## Valid records -/

/-- LEN is the size of the frame (rule R42). -/
theorem Frame.Valid.length_eq {f : Frame} (h : f.Valid) :
    f.length = u16OfNat (11 + f.data.length) := by
  obtain ⟨-, -, hlen, -⟩ := h
  rw [← hlen, u16OfNat_of_toNat]

/-- The covered bytes are what the encoder writes, when START and LEN are in place. -/
theorem Frame.covered_eq_encodeBody {f : Frame} (hstart : f.start = START)
    (hlen : f.length = u16OfNat (11 + f.data.length)) :
    f.covered = encodeBody f.dest f.src f.cmd f.data := by
  rw [Frame.covered, hstart, hlen, encodeBody]
  simp [headerBytes, MIN_LEN]

/-- A valid record laid out is its wire form. -/
theorem Frame.Valid.layout_eq {f : Frame} (h : f.Valid) : f.layout = f.wire := by
  have hcov := Frame.covered_eq_encodeBody h.1 h.length_eq
  obtain ⟨-, hstop, -, hcrc⟩ := h
  rw [Frame.layout, hcov, hcrc, hstop, Frame.wire, encodeFrame]

/-- The fields read at their offsets from a valid record's wire form (rule R40). -/
theorem Frame.Valid.fields_wire {f : Frame} (h : f.Valid) :
    lenField f.wire = f.length ∧ destField f.wire = f.dest ∧ srcField f.wire = f.src ∧
      cmdField f.wire = f.cmd ∧ dataField f.wire = f.data := by
  simp [← h.layout_eq]

@[simp] theorem Frame.wire_length (f : Frame) : f.wire.length = 11 + f.data.length := by
  rw [Frame.wire, encodeFrame_length]

/-- LEN is the number of bytes on the wire. -/
theorem Frame.Valid.wire_length_eq {f : Frame} (h : f.Valid) : f.wire.length = f.length.toNat := by
  obtain ⟨-, -, hlen, -⟩ := h
  rw [Frame.wire_length, hlen]

theorem builtFrame_valid {dest src : U16} {cmd : Byte} {payload : Bytes}
    (h : 11 + payload.length ≤ 65535) : (builtFrame dest src cmd payload).Valid := by
  simp only [Frame.Valid, builtFrame, u16OfNat_toNat h, and_self]

theorem fields_encodeFrame {payload : Bytes} (h : 11 + payload.length ≤ 65535) (dest src : U16)
    (cmd : Byte) :
    lenField (encodeFrame dest src cmd payload) = u16OfNat (11 + payload.length) ∧
      destField (encodeFrame dest src cmd payload) = dest ∧
      srcField (encodeFrame dest src cmd payload) = src ∧
      cmdField (encodeFrame dest src cmd payload) = cmd ∧
      dataField (encodeFrame dest src cmd payload) = payload :=
  (builtFrame_valid h).fields_wire

theorem builtFrame_wire (dest src : U16) (cmd : Byte) (payload : Bytes) :
    (builtFrame dest src cmd payload).wire = encodeFrame dest src cmd payload := rfl

/-! ## `decode` and `encode` (rules R78, R80, R81) -/

theorem dataField_eq (r : Bytes) : dataField r = (r.drop 8).take (r.length - 11) := by
  rw [dataField, slice, List.drop_take]
  rfl

theorem crcOk_iff (r : Bytes) : crcOk r ↔ crc16 (coveredRange r) = crcField r := by
  rw [crcOk, beq_iff_eq]

theorem lengthOk_iff_lenField (r : Bytes) : lengthOk r ↔ (lenField r).toNat = r.length := by
  rw [lengthOk, beq_iff_eq]

theorem delimitersOk_iff_byteAt (r : Bytes) :
    delimitersOk r ↔ byteAt r 0 = START ∧ byteAt r (r.length - 1) = STOP := by
  rw [delimitersOk, Bool.and_eq_true, beq_iff_eq, beq_iff_eq]

/-- `decode` answers a record exactly when the record is valid and the range is its wire form. -/
theorem decodeFrame_ok_iff_wire {r : Bytes} {f : Frame} :
    decodeFrame r = .ok f ↔ f.Valid ∧ r = f.wire := by
  rw [decodeFrame_ok_iff, delimitersOk_iff_byteAt, lengthOk_iff_lenField, crcOk_iff]
  constructor
  · rintro ⟨⟨hsize, ⟨hstart, hstop⟩, hlen, hcrc⟩, hf⟩
    obtain ⟨g, rfl⟩ := exists_layout (sizeOk_iff.mp hsize)
    rw [Frame.byteAt_layout_start] at hstart
    rw [Frame.byteAt_layout_stop] at hstop
    rw [Frame.lenField_layout, Frame.layout_length] at hlen
    rw [Frame.coveredRange_layout, Frame.crcField_layout] at hcrc
    have hg : g.length = u16OfNat (11 + g.data.length) := by rw [← hlen, u16OfNat_of_toNat]
    have hvalid : g.Valid :=
      ⟨hstart, hstop, hlen, by rw [← Frame.covered_eq_encodeBody hstart hg, hcrc]⟩
    have hfg : f = g := by
      rw [hf, frameOf, Frame.lenField_layout, Frame.destField_layout, Frame.srcField_layout,
        Frame.cmdField_layout, Frame.dataField_layout, Frame.crcField_layout, ← hstart, ← hstop]
    rw [hfg]
    exact ⟨hvalid, hvalid.layout_eq⟩
  · rintro ⟨hvalid, rfl⟩
    have hcov := Frame.covered_eq_encodeBody hvalid.1 hvalid.length_eq
    rw [← hvalid.layout_eq]
    obtain ⟨hstart, hstop, hlen, hcrc⟩ := hvalid
    refine ⟨⟨sizeOk_iff.mpr (by simp), ⟨hstart, f.byteAt_layout_stop.trans hstop⟩,
      by simpa using hlen, ?_⟩, ?_⟩
    · rw [Frame.coveredRange_layout, Frame.crcField_layout, hcov, hcrc]
    · rw [frameOf, Frame.lenField_layout, Frame.destField_layout, Frame.srcField_layout,
        Frame.cmdField_layout, Frame.dataField_layout, Frame.crcField_layout, ← hstart, ← hstop]

theorem decodeFrame_wire {f : Frame} (h : f.Valid) : decodeFrame f.wire = .ok f :=
  decodeFrame_ok_iff_wire.mpr ⟨h, rfl⟩

/-- The four checks of `decode` are the five clauses of a valid frame (rule R78). -/
theorem validFrame_iff {r : Bytes} :
    ValidFrame r ↔ sizeOk r ∧ delimitersOk r ∧ lengthOk r ∧ crcOk r := by
  rw [sizeOk_iff, delimitersOk_iff, lengthOk_iff]
  constructor
  · rintro ⟨hsize, hstart, hstop, hlen, hcrc⟩
    refine ⟨hsize, ⟨hstart, hstop⟩, hlen, (crcOk_iff r).mpr (BitVec.eq_of_toNat_eq ?_)⟩
    rw [crcField_toNat (by omega), hcrc, coveredRange_eq]
  · rintro ⟨hsize, ⟨hstart, hstop⟩, hlen, hcrc⟩
    refine ⟨hsize, hstart, hstop, hlen, ?_⟩
    rw [← crcField_toNat (by omega), ← (crcOk_iff r).mp hcrc, coveredRange_eq]

theorem exists_decodeFrame_ok_iff {r : Bytes} : (∃ f, decodeFrame r = .ok f) ↔ ValidFrame r := by
  simp only [decodeFrame_ok_iff, validFrame_iff, exists_and_left, exists_eq, and_true]

/-- A valid frame is the wire form of the record it decodes to. -/
theorem exists_wire_of_validFrame {r : Bytes} (h : ValidFrame r) :
    ∃ f : Frame, f.Valid ∧ r = f.wire ∧ decodeFrame r = .ok f := by
  obtain ⟨f, hf⟩ := exists_decodeFrame_ok_iff.mpr h
  obtain ⟨hvalid, hr⟩ := decodeFrame_ok_iff_wire.mp hf
  exact ⟨f, hvalid, hr, hf⟩

theorem Frame.Valid.validFrame_wire {f : Frame} (h : f.Valid) : ValidFrame f.wire :=
  exists_decodeFrame_ok_iff.mp ⟨f, decodeFrame_wire h⟩

theorem decodeFrame_encodeFrame {dest src : U16} {cmd : Byte} {payload : Bytes}
    (h : 11 + payload.length ≤ 65535) :
    decodeFrame (encodeFrame dest src cmd payload) = .ok (builtFrame dest src cmd payload) :=
  decodeFrame_wire (f := builtFrame dest src cmd payload) (builtFrame_valid h)

/-- Settles O16: the checks of `decode` clause by clause, and the record of a wire form is valid. -/
theorem decodeAcceptsExactlyValidFrames : Obligations.DecodeAcceptsExactlyValidFrames :=
  fun _ => ⟨exists_decodeFrame_ok_iff, fun _ hf => (decodeFrame_ok_iff_wire.mp hf).1⟩

/-- Settles O20: the encoder's bytes are the wire form of the record built of the fields. -/
theorem decodeOfEncodedFrameIsItsFields : Obligations.DecodeOfEncodedFrameIsItsFields :=
  fun _ _ _ _ hlen => decodeFrame_encodeFrame hlen

/-- Settles O21: the range is the wire form of the record. -/
theorem encodeOfDecodedFrameIsTheRange : Obligations.EncodeOfDecodedFrameIsTheRange :=
  fun _ _ hf => (decodeFrame_ok_iff_wire.mp hf).2.symm

/-- Settles O14: the fields of the built record's layout, offset by offset. -/
theorem encodedFrameHasTheWireLayout : Obligations.EncodedFrameHasTheWireLayout := by
  intro dest src cmd payload hlen r L u16At
  obtain ⟨-, hstart, hstop, -, hcrc⟩ : ValidFrame r :=
    (builtFrame_valid (dest := dest) (src := src) (cmd := cmd) hlen).validFrame_wire
  obtain ⟨hlenField, hdest, hsrc, hcmd, hdata⟩ := fields_encodeFrame hlen dest src cmd
  have hrL : r.length = L := encodeFrame_length dest src cmd payload
  have hu16At : ∀ k, u16At k = (fieldAt r k).toNat := fun k => (le16_toNat _ _).symm
  refine ⟨hrL, hstart, ?_, ?_, ?_, hcmd, ?_, ?_, ?_⟩
  · rw [hu16At]; exact (congrArg BitVec.toNat hlenField).trans (u16OfNat_toNat hlen)
  · rw [hu16At]; exact congrArg BitVec.toNat hdest
  · rw [hu16At]; exact congrArg BitVec.toNat hsrc
  · rw [← hrL, ← dataField_eq]; exact hdata
  · have hhigh : L - 3 + 1 = L - 2 := by omega
    simp only [u16At]
    rw [hhigh, ← hrL]
    exact hcrc
  · rw [← hrL]; exact hstop

/-! ## The operations -/

/-- Settles O15: the two branches of ENC.REQ, and the frame `A` computed. -/
theorem encReqReturnsFrameOrIsRefused : Obligations.EncReqReturnsFrameOrIsRefused := by
  refine ⟨fun dest src cmd payload s => ⟨fun hfits => ?_, fun hlong => ?_⟩, by decide +kernel⟩
  · rw [exec_encReq, if_neg (Nat.not_lt.mpr hfits)]; rfl
  · rw [exec_encReq, if_pos hlong]

theorem headerOk_iff {r : Bytes} :
    (11 ≤ r.length ∧ r.getD 0 0#8 = 0x68#8 ∧ r.getD (r.length - 1) 0#8 = 0x16#8 ∧
      (lenField r).toNat = r.length) ↔ sizeOk r ∧ delimitersOk r ∧ lengthOk r := by
  rw [sizeOk_iff, delimitersOk_iff, lengthOk_iff_lenField, and_assoc]



/-- Behind the checks of the header the CRC alone decides (rule R121). -/
theorem decodeResult_of_headerOk {r : Bytes} (h : sizeOk r ∧ delimitersOk r ∧ lengthOk r) :
    decodeResult r =
      if crc16 (coveredRange r) = crcField r then .frame (frameOf r) else .error .crcMismatch := by
  obtain ⟨hsize, hdelims, hlen⟩ := h
  by_cases hcrc : crc16 (coveredRange r) = crcField r
  · have hd := decodeFrame_ok_iff.mpr ⟨⟨hsize, hdelims, hlen, (crcOk_iff r).mpr hcrc⟩, rfl⟩
    rw [decodeResult, hd, if_pos hcrc]
  · have hd := decodeFrame_crcMismatch_iff.mpr
      ⟨⟨hsize, hdelims, hlen⟩, Bool.eq_false_iff.mpr fun hok => hcrc ((crcOk_iff r).mp hok)⟩
    rw [decodeResult, hd, if_neg hcrc]

/-- Settles O17: the checks before the CRC, then the CRC (rule R121). -/
theorem decFrameReturnsFieldsOrError : Obligations.DecFrameReturnsFieldsOrError := by
  intro r s n u16At headerOk returns
  refine ⟨fun hbad => ?_, fun hok hcrc => ?_, fun hok hcrc => ?_⟩
  · have hd := decodeFrame_malformed_iff.mpr fun h => hbad (headerOk_iff.mpr h)
    show exec _ _ = _
    rw [exec_decFrame, decodeResult, hd]; rfl
  · have hcrc : crc16 (coveredRange r) ≠ crcField r := hcrc
    show exec _ _ = _
    rw [exec_decFrame, decodeResult_of_headerOk (headerOk_iff.mp hok), if_neg hcrc]; rfl
  · have hcrc : crc16 (coveredRange r) = crcField r := hcrc
    show exec _ _ = _
    rw [exec_decFrame, decodeResult_of_headerOk (headerOk_iff.mp hok), if_pos hcrc, frameOf,
      dataField_eq]
    rfl

/-! ## One corrupted byte (rule R82) -/

/-- The bytes a valid frame's CRC covers determine the rest of the frame. -/
theorem drop_of_validFrame {r : Bytes} (h : ValidFrame r) :
    r.drop (r.length - 3) = u16Bytes (crc16 (r.take (r.length - 3))) ++ [STOP] := by
  obtain ⟨f, -, rfl, -⟩ := exists_wire_of_validFrame h
  have hlen : f.wire.length - 3 = (encodeBody f.dest f.src f.cmd f.data).length := by
    rw [Frame.wire_length, encodeBody_length]; omega
  rw [hlen, Frame.wire, encodeFrame, List.take_left, List.drop_left]

theorem u16Bytes_inj {v w : U16} (h : u16Bytes v = u16Bytes w) : v = w := by
  simp only [u16Bytes, List.cons.injEq, and_true] at h
  rw [← le16_lo8_hi8 v, ← le16_lo8_hi8 w, h.1, h.2]

theorem getD_set_self {s : Bytes} {i : Nat} {b : Byte} (h : i < s.length) :
    (s.set i b).getD i 0#8 = b := by
  simp [List.getD_eq_getElem?_getD, h]

/-- A byte set to another value changes the CRC. -/
theorem getD_eq_of_crc16_set {s : Bytes} {i : Nat} {b : Byte} (hi : i < s.length)
    (h : crc16 (s.set i b) = crc16 s) : b = s.getD i 0#8 := by
  have hsplit : s = s.take i ++ s.getD i 0#8 :: s.drop (i + 1) := by
    rw [List.getD_eq_getElem _ _ hi, ← List.drop_eq_getElem_cons hi, List.take_append_drop]
  rw [List.set_eq_take_append_cons_drop, if_pos hi] at h
  conv at h => rhs; rw [hsplit]
  exact crc16_one_byte_inj h

/-- Two valid frames that differ in one byte at most are equal: outside the covered bytes they have
nothing of their own, and inside them the CRC tells a changed byte. -/
theorem eq_of_validFrame_set {r : Bytes} {i : Nat} {b : Byte} (hr : ValidFrame r)
    (hi : i < r.length) (hset : ValidFrame (r.set i b)) : b = r.getD i 0#8 := by
  have htail := drop_of_validFrame hr
  have htail' := drop_of_validFrame hset
  rw [List.length_set, List.take_set] at htail'
  by_cases hcov : i < r.length - 3
  · rw [List.drop_set_of_lt hcov, htail] at htail'
    have hcrc := u16Bytes_inj (List.append_cancel_right htail')
    rw [getD_eq_of_crc16_set (by simp; omega) hcrc.symm, getD_take hcov]
  · have hbefore : (r.take (r.length - 3)).length ≤ i := by rw [List.length_take]; omega
    rw [List.set_eq_of_length_le hbefore, ← htail] at htail'
    have hbyte := congrArg (·.getD (i - (r.length - 3)) 0#8) htail'
    have hback : r.length - 3 + (i - (r.length - 3)) = i := by omega
    simpa only [getD_drop, hback, getD_set_self hi] using hbyte

/-- Settles O22: if the changed range decoded, both would be valid frames, and the byte the old one. -/
theorem singleCorruptedByteIsDetected : Obligations.SingleCorruptedByteIsDetected := by
  intro r i b hr hi hb
  cases hd : decodeFrame (r.set i b) with
  | error e => exact ⟨e, rfl⟩
  | ok f => exact absurd (eq_of_validFrame_set hr hi (exists_decodeFrame_ok_iff.mp ⟨f, hd⟩)) hb

end Sys2Proof.Machine
end

section
/-! PROOFS. The internal steps of the Stream Framer (42_framer.md sections 1 and 3): one equation for
each arm of a phase, the reaction to an error (60_exceptions.md rules R116, R122), and the loop of
FRM.PUSH: that it ends, where it ends, and what it does not read. -/

namespace Sys2Proof.Machine

/-! ## The step of `SEEK_START` (rule R91) -/

theorem startIndex_eq_some {bs : Bytes} {i : Nat} (hi : i < bs.length) (hstart : bs.getD i 0#8 = START)
    (hleast : ∀ j < i, bs.getD j 0#8 ≠ START) : startIndex bs = some i := by
  have hsplit : bs = bs.take i ++ START :: bs.drop (i + 1) := by
    rw [← hstart, List.getD_eq_getElem _ _ hi, ← List.drop_eq_getElem_cons hi, List.take_append_drop]
  have hgap : ∀ b ∈ bs.take i, b ≠ START := by
    intro b hb
    obtain ⟨j, hj, rfl⟩ := List.mem_iff_getElem.mp hb
    obtain ⟨hji, hjlen⟩ := Nat.lt_min.mp (List.length_take ▸ hj)
    have hne := hleast j hji
    rwa [List.getD_eq_getElem _ _ hjlen, ← List.getElem_take (h := hj)] at hne
  rw [hsplit, startIndex_append hgap, List.length_take_of_le (Nat.le_of_lt hi)]

theorem internalStep_seekStart_some (m : Nat) {f : Framer} {i : Nat} (hp : f.phase = .seekStart)
    (hi : startIndex f.buf = some i) :
    internalStep m f = .ok ({ f with buf := f.buf.drop i, phase := .readLength }, .progress) := by
  have hle := Nat.le_of_lt (startIndex_some hi).1
  simp only [internalStep, hp, seekStartStep, hi, bufDrop_of_le hle]

theorem internalStep_seekStart_none (m : Nat) {f : Framer} (hp : f.phase = .seekStart)
    (hi : startIndex f.buf = none) : internalStep m f = .ok ({ f with buf := [] }, .wait) := by
  simp only [internalStep, hp, seekStartStep, hi, bufClear]

/-- Settles O23: by where the first START is found. -/
theorem seekStartStepFindsFirstStart : Obligations.SeekStartStepFindsFirstStart :=
  fun m _ hp =>
    ⟨fun _ hi hstart hleast =>
        internalStep_seekStart_some m hp (startIndex_eq_some hi hstart hleast),
      fun hnone => internalStep_seekStart_none m hp (startIndex_none.mpr hnone)⟩

/-! ## The step of `READ_LENGTH` (rule R92) -/

theorem internalStep_readLength (m : Nat) {f : Framer} (hp : f.phase = .readLength) :
    internalStep m f =
      if f.buf.length < 3 then .ok (f, .wait)
      else if lengthInRange m (lenField f.buf) then
        .ok ({ f with flen := lenField f.buf, phase := .accumulateBody }, .progress)
      else .ok ({ f with buf := f.buf.drop 1, phase := .seekStart }, .resync .malformedHeader) := by
  simp only [internalStep, hp, readLengthStep]
  by_cases hshort : f.buf.length < 3
  · rw [if_pos hshort, if_pos hshort]
  · have hresync := resync_ok_iff (k := .malformedHeader).mpr
      ⟨Nat.le_trans (by decide) (Nat.le_of_not_lt hshort), rfl, rfl⟩
    rw [if_neg hshort, if_neg hshort, hresync]

section
variable (m : Nat) {f : Framer} (hp : f.phase = .readLength)
include hp

theorem internalStep_readLength_wait (hlen : f.buf.length < 3) : internalStep m f = .ok (f, .wait) := by
  rw [internalStep_readLength m hp, if_pos hlen]

theorem internalStep_readLength_progress (hlen : 3 ≤ f.buf.length)
    (hrange : lengthInRange m (lenField f.buf) = true) :
    internalStep m f =
      .ok ({ f with flen := lenField f.buf, phase := .accumulateBody }, .progress) := by
  rw [internalStep_readLength m hp, if_neg (Nat.not_lt.mpr hlen), if_pos hrange]

theorem internalStep_readLength_resync (hlen : 3 ≤ f.buf.length)
    (hrange : lengthInRange m (lenField f.buf) = false) :
    internalStep m f =
      .ok ({ f with buf := f.buf.drop 1, phase := .seekStart }, .resync .malformedHeader) := by
  rw [internalStep_readLength m hp, if_neg (Nat.not_lt.mpr hlen), if_neg (by simp [hrange])]

end

theorem lenField_toNat (bs : Bytes) :
    (lenField bs).toNat = (bs.getD 1 0#8).toNat + 256 * (bs.getD 2 0#8).toNat := le16_toNat _ _

/-- Settles O24: the three arms, the length being the LEN field of the buffer. -/
theorem readLengthStepTakesOrRejectsLength : Obligations.ReadLengthStepTakesOrRejectsLength := by
  intro m f hp L
  have hL : (lenField f.buf).toNat = L := lenField_toNat f.buf
  refine ⟨internalStep_readLength_wait m hp, fun hlong hout => ?_, fun hlong hmin hmax => ?_⟩
  · refine internalStep_readLength_resync m hp hlong (Bool.eq_false_iff.mpr ?_)
    rw [ne_eq, lengthInRange_iff, hL]
    omega
  · rw [internalStep_readLength_progress m hp hlong, ← hL, u16OfNat_of_toNat]
    rw [lengthInRange_iff, hL]
    exact ⟨hmin, hmax⟩

/-! ## Errors (rules R116, R121, R122, R131) -/

theorem decodeFrame_malformed_iff_bytes {r : Bytes} :
    decodeFrame r = .error .malformedHeader ↔
      (r.length < 11 ∨ r.getD 0 0#8 ≠ 0x68#8 ∨ r.getD (r.length - 1) 0#8 ≠ 0x16#8 ∨
        (r.getD 1 0#8).toNat + 256 * (r.getD 2 0#8).toNat ≠ r.length) := by
  rw [decodeFrame_malformed_iff, sizeOk_iff, delimitersOk_iff, lengthOk_iff, ← Nat.not_le]
  tauto

/-- Settles O19: the checks of `decode` before the CRC, and the two resyncs of the framer, of which
inside a push the second is a wrong STOP byte. -/
theorem malformedHeaderCauses : Obligations.MalformedHeaderCauses := by
  refine ⟨fun _ => decodeFrame_malformed_iff_bytes, fun m f g hmid hstep => ?_⟩
  rcases internalStep_resync_cases hstep with ⟨hp, hlen, hrange, -⟩ | ⟨hp, hlen, hd⟩
  · have hout : ¬ (11 ≤ (lenField f.buf).toNat ∧ (lenField f.buf).toNat ≤ m) := by
      rw [← lengthInRange_iff, hrange]; decide
    rw [lenField_toNat] at hout
    exact .inl ⟨hp, hlen, by omega⟩
  · have hstop := (decodeFrame_malformed_iff_of_midPush hp hmid).mp hd
    have hpos : f.flen.toNat - 1 < f.flen.toNat := by
      obtain ⟨-, hcand⟩ := hmid
      simp only [hp] at hcand
      obtain ⟨-, -, -, hmin, -⟩ := hcand
      omega
    rw [getD_take hpos] at hstop
    exact .inr ⟨hp, hlen, hstop⟩

/-- Inside a push a candidate begins with START once it has been found (rule R15). -/
theorem MidPush.start {m : Nat} {f : Framer} (h : MidPush m f) (hp : f.phase ≠ .seekStart) :
    f.buf.getD 0 0#8 = START := by
  obtain ⟨-, hcand⟩ := h
  cases hphase : f.phase <;> simp only [hphase] at hcand
  case seekStart => exact absurd hphase hp
  case readLength => exact hcand.2
  case accumulateBody | emitOrResync =>
    obtain ⟨-, hstart, -⟩ := hcand
    exact hstart

/-- Every resync drops the first byte, and happens after a START has been found (rule R122). -/
theorem internalStep_resync {m : Nat} {f g : Framer} {k : FrameError}
    (h : internalStep m f = .ok (g, .resync k)) :
    f.buf ≠ [] ∧ f.phase ≠ .seekStart ∧
      g = { phase := .seekStart, buf := f.buf.drop 1, flen := f.flen } := by
  rcases internalStep_cases h with
    ⟨-, _, -, -, ⟨⟩⟩ | ⟨-, -, -, ⟨⟩⟩ | ⟨-, -, -, ⟨⟩⟩ | ⟨hp, hlen, -, rfl, -⟩ |
    ⟨-, -, -, -, ⟨⟩⟩ | ⟨-, -, -, ⟨⟩⟩ | ⟨-, -, -, ⟨⟩⟩ | ⟨-, -, _, -, -, ⟨⟩⟩ |
    ⟨hp, -, hlen, _, -, rfl, -⟩
  all_goals exact ⟨List.ne_nil_of_length_pos (by omega), by simp [hp], rfl⟩

/-- Settles O27: the resync of the transition table; its kind is one more diagnostic and no frame. -/
theorem resyncDropsTheStartByteOnly : Obligations.ResyncDropsTheStartByteOnly := by
  refine ⟨fun m f g k h => ?_, fun c k pre post => ?_, fun r s t h => ?_⟩
  · obtain ⟨hne, hp, hg⟩ := internalStep_resync h
    exact ⟨hne, hg, fun hmid => hmid.start hp⟩
  · simp [framerResult, framesOf, diagsOf]
  · rw [exec_decFrame, Host.Outcome.next.injEq] at h
    rw [← h]
    exact ⟨rfl, rfl⟩

/-! ## The buffer (rules R31, R100) -/

theorem internalStep_suffix {m : Nat} {f g : Framer} {r : StepResult}
    (h : internalStep m f = .ok (g, r)) : g.buf <:+ f.buf := by
  rcases internalStep_cases h with
    ⟨-, _, -, rfl, -⟩ | ⟨-, -, rfl, -⟩ | ⟨-, -, rfl, -⟩ | ⟨-, -, -, rfl, -⟩ |
    ⟨-, -, -, rfl, -⟩ | ⟨-, -, rfl, -⟩ | ⟨-, -, rfl, -⟩ | ⟨-, -, _, -, rfl, -⟩ |
    ⟨-, -, -, _, -, rfl, -⟩
  · exact List.drop_suffix _ _
  · exact List.nil_suffix
  · exact List.suffix_refl _
  · exact List.drop_suffix _ _
  · exact List.suffix_refl _
  · exact List.suffix_refl _
  · exact List.suffix_refl _
  · exact List.drop_suffix _ _
  · exact List.drop_suffix _ _

/-- Settles O28: each primitive in its domain, and the transition table. -/
theorem bufferChangesByItsPrimitivesOnly : Obligations.BufferChangesByItsPrimitivesOnly :=
  ⟨fun _ _ _ => bufAppend_of_room, fun _ _ => bufDrop_of_le, fun _ => rfl,
    fun _ _ => quiescent_length, fun _ _ _ _ => internalStep_suffix⟩

/-- Settles O36: a quiescent framer has room, and the invariant inside a push is kept. -/
theorem bufferNeverExceedsMaxLen : Obligations.BufferNeverExceedsMaxLen := by
  refine ⟨fun c f hq => Nat.le_sub_one_of_lt (quiescent_length hq), fun m f g r hmid h =>
    ⟨(internalStep_suffix h).length_le, (midPush_step hmid h).1⟩, fun b s hq => ?_⟩
  obtain ⟨g, trace, hpush, -, -⟩ := pushByte_quiescent b hq
  exact ⟨midPush_append hq, _, by rw [exec_frmPush, hpush, framerOutcome_ok]⟩

/-! ## The loop of FRM.PUSH (rules R95, R97, R98) -/

/-- A step has one outcome, so the run of steps until one waits is unique. -/
theorem runsUntilWait_unique {m : Nat} {f g h : Framer} {t u : List StepResult}
    (hg : RunsUntilWait m f t g) (hh : RunsUntilWait m f u h) : t = u ∧ g = h := by
  induction hg generalizing u with
  | waits hstep => cases hh with
    | waits hstep' =>
      cases hstep.symm.trans hstep'
      exact ⟨rfl, rfl⟩
    | goesOn hstep' hr' _ =>
      cases hstep.symm.trans hstep'
      exact absurd rfl hr'
  | goesOn hstep hr _ ih => cases hh with
    | waits hstep' =>
      cases hstep.symm.trans hstep'
      exact absurd rfl hr
    | goesOn hstep' _ more' =>
      cases hstep.symm.trans hstep'
      obtain ⟨rfl, rfl⟩ := ih more'
      exact ⟨rfl, rfl⟩

/-- Settles O29: a push from a quiescent framer is answered with the run of its steps. -/
theorem pushAppendsThenStepsUntilWait : Obligations.PushAppendsThenStepsUntilWait := by
  refine ⟨fun b s hq => ?_, fun _ _ _ _ _ _ => runsUntilWait_unique⟩
  obtain ⟨g, trace, hpush, hruns, -⟩ := pushByte_quiescent b hq
  refine ⟨g, trace, hruns, ?_⟩
  rw [exec_frmPush, hpush, framerOutcome_ok]
  rfl

/-- All that an answered loop can have done first: a step that waits, or one before more of them. -/
theorem runSteps_ok_cases {m fuel : Nat} {f g : Framer} {trace : List StepResult}
    (h : runSteps m (fuel + 1) f = .ok (g, trace)) :
    (internalStep m f = .ok (g, .wait) ∧ trace = [.wait]) ∨
      ∃ k r more, internalStep m f = .ok (k, r) ∧ r ≠ .wait ∧
        runSteps m fuel k = .ok (g, more) ∧ trace = r :: more := by
  cases hstep : internalStep m f with
  | error e => simp [runSteps, hstep] at h
  | ok p =>
    obtain ⟨k, r⟩ := p
    by_cases hr : r = .wait
    · subst hr
      rw [runSteps_wait hstep] at h
      cases h
      exact .inl ⟨rfl, rfl⟩
    · rw [runSteps_succ hstep hr] at h
      obtain ⟨more, hmore, rfl⟩ := before_ok_iff.mp h
      exact .inr ⟨k, r, more, rfl, hr, hmore, rfl⟩

theorem runSteps_length_le {m fuel : Nat} {f g : Framer} {trace : List StepResult}
    (h : runSteps m fuel f = .ok (g, trace)) : trace.length ≤ fuel := by
  induction fuel generalizing f trace with
  | zero => cases h
  | succ fuel ih =>
    rcases runSteps_ok_cases h with ⟨-, rfl⟩ | ⟨k, r, more, -, -, hmore, rfl⟩
    · simp
    · exact Nat.succ_le_succ (ih hmore)

/-- The only faults of a step are accesses outside the buffer (rule R31). -/
theorem internalStep_ne_stepCountSpent (m : Nat) (f : Framer) :
    internalStep m f ≠ .error .stepCountSpent := by
  cases hp : f.phase with
  | seekStart =>
    cases hi : startIndex f.buf with
    | none => rw [internalStep_seekStart_none m hp hi]; simp
    | some i => rw [internalStep_seekStart_some m hp hi]; simp
  | readLength =>
    rw [internalStep_readLength m hp]
    split
    · simp
    · split <;> simp
  | accumulateBody =>
    rw [internalStep_accumulateBody m hp]
    split <;> simp
  | emitOrResync =>
    by_cases hlen : f.flen.toNat ≤ f.buf.length
    · cases hd : decodeFrame (f.buf.take f.flen.toNat) with
      | ok fr => rw [internalStep_emitOrResync_emit m hp hlen hd]; simp
      | error e =>
        by_cases hne : f.buf = []
        · simp only [internalStep, hp, emitOrResyncStep, bufHead_of_le hlen, hd]
          simp [resync, bufDrop, hne]
        · rw [internalStep_emitOrResync_resync m hp hlen hne hd]; simp
    · simp [internalStep, hp, emitOrResyncStep, bufHead, hlen]

theorem before_error_iff {trace : List StepResult} {r : Except Fault (Framer × List StepResult)}
    {e : Fault} : before trace r = .error e ↔ r = .error e := by
  match r with
  | .error _ => simp
  | .ok (_, _) => simp

/-- With more steps than the measure of rule R97 the count is never spent, whatever the framer. -/
theorem runSteps_ne_stepCountSpent {m fuel : Nat} {f : Framer} (hfuel : stepMeasure f < fuel) :
    runSteps m fuel f ≠ .error .stepCountSpent := by
  induction fuel generalizing f with
  | zero => omega
  | succ fuel ih =>
    cases hstep : internalStep m f with
    | error e =>
      have hne := internalStep_ne_stepCountSpent m f
      rw [hstep] at hne
      simpa [runSteps, hstep] using hne
    | ok p =>
      obtain ⟨g, r⟩ := p
      by_cases hr : r = .wait
      · subst hr
        rw [runSteps_wait hstep]
        simp
      · have hlt := stepMeasure_lt hstep hr
        rw [runSteps_succ hstep hr, ne_eq, before_error_iff]
        exact ih (by omega)

theorem pushByte_of_room {c : Config} (b : Byte) {f : Framer} (h : f.buf.length < c.bufCap) :
    pushByte c b f =
      runSteps c.maxLen (stepBound (f.buf.length + 1)) { f with buf := f.buf ++ [b] } := by
  simp only [pushByte, bufAppend_of_room h, List.length_append, List.length_singleton]

theorem pushByte_of_full {c : Config} (b : Byte) {f : Framer} (h : ¬ f.buf.length < c.bufCap) :
    pushByte c b f = .error .bufferFull := by
  simp only [pushByte, bufAppend, if_neg h]

/-- Settles O34: the measure orders first by the buffer, then by the phase; the step count is above
it. -/
theorem pushTerminatesWithinItsBound : Obligations.PushTerminatesWithinItsBound := by
  refine ⟨fun m f g r h hr => ?_, fun c b f g trace h => ?_, fun c b f => ?_⟩
  · have hlt := stepMeasure_lt h hr
    simp only [stepMeasure] at hlt
    omega
  · by_cases hroom : f.buf.length < c.bufCap
    · rw [pushByte_of_room b hroom] at h
      exact runSteps_length_le h
    · rw [pushByte_of_full b hroom] at h
      cases h
  · by_cases hroom : f.buf.length < c.bufCap
    · rw [pushByte_of_room b hroom]
      refine runSteps_ne_stepCountSpent ?_
      simp only [stepMeasure, stepBound, List.length_append, List.length_singleton]
      omega
    · rw [pushByte_of_full b hroom]
      simp

/-- A quiescent framer waits, and waiting changes nothing. -/
theorem internalStep_of_quiescent {m : Nat} {f : Framer} (h : Quiescent m f) :
    internalStep m f = .ok (f, .wait) := by
  unfold Quiescent at h
  cases hp : f.phase <;> simp only [hp] at h
  case seekStart =>
    have hnone : startIndex f.buf = none := by rw [h]; rfl
    rw [internalStep_seekStart_none m hp hnone, ← h]
  case readLength =>
    obtain ⟨-, hshort, -⟩ := h
    exact internalStep_readLength_wait m hp (by omega)
  case accumulateBody =>
    obtain ⟨-, hshort, -⟩ := h
    rw [internalStep_accumulateBody m hp, if_pos hshort]

/-- Settles O35: inside a push a step that waits leaves the framer quiescent, and a quiescent one
waits. -/
theorem quiescentIsWhereTheNextStepWaits : Obligations.QuiescentIsWhereTheNextStepWaits := by
  refine ⟨fun m f hmid => ⟨fun h => (midPush_step hmid h).2 rfl, internalStep_of_quiescent⟩,
    fun b s t hq h => ?_, fun s t h => ?_⟩
  · obtain ⟨g, trace, hpush, -, hg⟩ := pushByte_quiescent b hq
    rw [exec_frmPush, hpush, framerOutcome_ok, Host.Outcome.next.injEq] at h
    rw [← h]
    exact hg
  · rw [exec_frmRst, Host.Outcome.next.injEq] at h
    rw [← h]
    exact quiescent_reset _

/-- Settles O31: the execution rule of FRM.RST. -/
theorem frmRstEmptiesTheFramer : Obligations.FrmRstEmptiesTheFramer := exec_frmRst

/-! ## `FRM.FLEN` is unread before it is written (rule R14) -/

/-- `FRM.FLEN` may hold `x` instead: it is stale, or `x` is what it holds. -/
def FlenMayBe (f : Framer) (x : U16) : Prop :=
  f.phase = .accumulateBody ∨ f.phase = .emitOrResync → x = f.flen

/-- A step does the same whatever a stale `FRM.FLEN` holds. -/
theorem internalStep_flenMayBe {m : Nat} {f g : Framer} {r : StepResult} {x : U16}
    (hx : FlenMayBe f x) (h : internalStep m f = .ok (g, r)) :
    ∃ y, internalStep m { f with flen := x } = .ok ({ g with flen := y }, r) ∧ FlenMayBe g y := by
  by_cases hread : f.phase = .accumulateBody ∨ f.phase = .emitOrResync
  · rw [hx hread]
    exact ⟨g.flen, h, fun _ => rfl⟩
  rcases internalStep_cases h with
    ⟨hp, i, hi, rfl, rfl⟩ | ⟨hp, hi, rfl, rfl⟩ | ⟨hp, hlen, rfl, rfl⟩ | ⟨hp, hlen, hrange, rfl, rfl⟩ |
    ⟨hp, hlen, hrange, rfl, rfl⟩ | ⟨hp, -⟩ | ⟨hp, -⟩ | ⟨hp, -⟩ | ⟨hp, -⟩
  · exact ⟨x, internalStep_seekStart_some m hp hi, by simp [FlenMayBe]⟩
  · exact ⟨x, internalStep_seekStart_none m hp hi, by simp [FlenMayBe, hp]⟩
  · exact ⟨x, internalStep_readLength_wait m hp hlen, by simp [FlenMayBe, hp]⟩
  · exact ⟨x, internalStep_readLength_resync m hp hlen hrange, by simp [FlenMayBe]⟩
  · exact ⟨lenField f.buf, internalStep_readLength_progress m hp hlen hrange, fun _ => rfl⟩
  all_goals exact absurd hp (by simp_all)

theorem runSteps_flenMayBe {m fuel : Nat} {f g : Framer} {trace : List StepResult} {x : U16}
    (hx : FlenMayBe f x) (h : runSteps m fuel f = .ok (g, trace)) :
    ∃ y, runSteps m fuel { f with flen := x } = .ok ({ g with flen := y }, trace) ∧
      FlenMayBe g y := by
  induction fuel generalizing f trace x with
  | zero => cases h
  | succ fuel ih =>
    rcases runSteps_ok_cases h with ⟨hstep, rfl⟩ | ⟨k, r, more, hstep, hr, hmore, rfl⟩
    · obtain ⟨y, hstep', hy⟩ := internalStep_flenMayBe hx hstep
      exact ⟨y, runSteps_wait hstep', hy⟩
    · obtain ⟨z, hstep', hz⟩ := internalStep_flenMayBe hx hstep
      obtain ⟨y, hrest, hy⟩ := ih hz hmore
      exact ⟨y, by rw [runSteps_succ hstep' hr, hrest, before_ok]; rfl, hy⟩

/-- Settles O37: step by step, a stale `FRM.FLEN` stays stale until it is written. -/
theorem flenIsUnreadBeforeItIsWritten : Obligations.FlenIsUnreadBeforeItIsWritten := by
  intro c b f g trace x hp h
  by_cases hroom : f.buf.length < c.bufCap
  · rw [pushByte_of_room b hroom] at h
    have hx : FlenMayBe { f with buf := f.buf ++ [b] } x := fun hread => by
      rcases hp with hp | hp <;> simp [hp] at hread
    obtain ⟨y, hrun, hy⟩ := runSteps_flenMayBe hx h
    exact ⟨y, (pushByte_of_room b (f := { f with flen := x }) hroom).trans hrun,
      fun hg => hy (.inl hg)⟩
  · rw [pushByte_of_full b hroom] at h
    cases h

end Sys2Proof.Machine
end

section
/-! PROOFS. Streams fed to the framer (42_framer.md section 4). Feeding a stream byte by byte does what the
internal steps do on the whole stream at once, a step that does not wait being blind to bytes that come
later; so each law is a run of steps over a stream (rules R102, R103, R105, R107). -/

namespace Sys2Proof.Machine

/-! ## Steps over a whole stream -/

/-- The framer with bytes buffered behind those it holds. -/
def Framer.extend (f : Framer) (t : Bytes) : Framer := { f with buf := f.buf ++ t }

@[simp] theorem Framer.extend_nil (f : Framer) : f.extend [] = f := by
  simp [Framer.extend]

theorem Framer.extend_extend (f : Framer) (s t : Bytes) : (f.extend s).extend t = f.extend (s ++ t) := by
  simp [Framer.extend]

/-- The steps from `f` until one waits emit the frames `fs`, resynchronise with the kinds `ds`, and
end in `g`. -/
def Settles (m : Nat) (f : Framer) (fs : List Frame) (ds : List FrameError) (g : Framer) : Prop :=
  ∃ trace, RunsUntilWait m f trace g ∧ framesOf trace = fs ∧ diagsOf trace = ds

theorem Settles.wait {m : Nat} {f g : Framer} (h : internalStep m f = .ok (g, .wait)) :
    Settles m f [] [] g :=
  ⟨[.wait], .waits h, rfl, rfl⟩

theorem Settles.step {m : Nat} {f g k : Framer} {r : StepResult} {fs : List Frame}
    {ds : List FrameError} (h : internalStep m f = .ok (g, r)) (hr : r ≠ .wait)
    (hg : Settles m g fs ds k) : Settles m f (framesOf [r] ++ fs) (diagsOf [r] ++ ds) k := by
  obtain ⟨trace, hruns, rfl, rfl⟩ := hg
  exact ⟨r :: trace, .goesOn h hr hruns, framesOf_append [r] trace, diagsOf_append [r] trace⟩

/-- A run depends on its framer through the first step alone. -/
theorem Settles.congr {m : Nat} {f f' g : Framer} {fs : List Frame} {ds : List FrameError}
    (h : internalStep m f = internalStep m f') (hf : Settles m f' fs ds g) : Settles m f fs ds g := by
  obtain ⟨trace, hruns, hfs, hds⟩ := hf
  refine ⟨trace, ?_, hfs, hds⟩
  cases hruns with
  | waits hstep => exact .waits (h.trans hstep)
  | goesOn hstep hr more => exact .goesOn (h.trans hstep) hr more

/-! ## Bytes that come later -/

theorem startIndex_append_of_some {bs : Bytes} {i : Nat} (t : Bytes) (h : startIndex bs = some i) :
    startIndex (bs ++ t) = some i := by
  obtain ⟨hi, hstart, hleast⟩ := startIndex_some h
  have hsame : ∀ j < bs.length, (bs ++ t).getD j 0#8 = bs.getD j 0#8 := fun j hj => by
    simp [List.getD_eq_getElem?_getD, List.getElem?_append_left hj]
  refine startIndex_eq_some (by simp; omega) (by rw [hsame i hi, hstart]) fun j hj => ?_
  rw [hsame j (by omega)]
  exact hleast j hj

theorem startIndex_gap_append {gap : Bytes} (t : Bytes) (h : ∀ b ∈ gap, b ≠ START) :
    startIndex (gap ++ t) = (startIndex t).map (· + gap.length) := by
  induction gap with
  | nil => simp
  | cons b gap ih =>
    have hb : b ≠ START := h b (by simp)
    rw [List.cons_append, startIndex, if_neg hb, ih fun x hx => h x (by simp [hx]), Option.map_map]
    congr 1

theorem lenField_append {bs : Bytes} (t : Bytes) (h : 3 ≤ bs.length) :
    lenField (bs ++ t) = lenField bs :=
  fieldAt_append_left (by omega)

/-- A step that does not wait has all it looks at, and does the same with more bytes behind it. -/
theorem internalStep_extend {m : Nat} {f g : Framer} {r : StepResult} (t : Bytes)
    (h : internalStep m f = .ok (g, r)) (hr : r ≠ .wait) :
    internalStep m (f.extend t) = .ok (g.extend t, r) := by
  have hle : ∀ {n}, n ≤ f.buf.length → n ≤ (f.extend t).buf.length := fun hn => by
    simp only [Framer.extend, List.length_append]; omega
  have hdrop : ∀ {n}, n ≤ f.buf.length → (f.extend t).buf.drop n = f.buf.drop n ++ t :=
    fun hn => List.drop_append_of_le_length hn
  rcases internalStep_cases h with
    ⟨hp, i, hi, rfl, rfl⟩ | ⟨-, -, -, rfl⟩ | ⟨-, -, -, rfl⟩ | ⟨hp, hlen, hrange, rfl, rfl⟩ |
    ⟨hp, hlen, hrange, rfl, rfl⟩ | ⟨-, -, -, rfl⟩ | ⟨hp, hlen, rfl, rfl⟩ |
    ⟨hp, hlen, fr, hd, rfl, rfl⟩ | ⟨hp, hlen, hpos, k, hd, rfl, rfl⟩
  · have hfound := startIndex_append_of_some t hi
    have hi' := Nat.le_of_lt (startIndex_some hi).1
    rw [internalStep_seekStart_some m (f := f.extend t) hp hfound, hdrop hi']
    rfl
  · exact absurd rfl hr
  · exact absurd rfl hr
  · have hrange' : lengthInRange m (lenField (f.extend t).buf) = false := by
      rw [Framer.extend, lenField_append t hlen, hrange]
    rw [internalStep_readLength_resync m (f := f.extend t) hp (hle hlen) hrange', hdrop (by omega)]
    rfl
  · have hrange' : lengthInRange m (lenField (f.extend t).buf) = true := by
      rw [Framer.extend, lenField_append t hlen, hrange]
    rw [internalStep_readLength_progress m (f := f.extend t) hp (hle hlen) hrange']
    simp only [Framer.extend, lenField_append t hlen]
  · exact absurd rfl hr
  · rw [internalStep_accumulateBody m (f := f.extend t) hp]
    exact if_neg (Nat.not_lt.mpr (hle hlen))
  · have hd' : decodeFrame ((f.extend t).buf.take (f.extend t).flen.toNat) = .ok fr := by
      rw [← hd]; exact congrArg _ (List.take_append_of_le_length hlen)
    have hflen : (f.extend t).flen = f.flen := rfl
    rw [internalStep_emitOrResync_emit m (f := f.extend t) hp (hle hlen) hd', hflen, hdrop hlen]
    rfl
  · have hd' : decodeFrame ((f.extend t).buf.take (f.extend t).flen.toNat) = .error k := by
      rw [← hd]; exact congrArg _ (List.take_append_of_le_length hlen)
    have hne : (f.extend t).buf ≠ [] := List.ne_nil_of_length_pos (hle hpos)
    rw [internalStep_emitOrResync_resync m (f := f.extend t) hp (hle hlen) hne hd', hdrop hpos]
    rfl

/-- Before a START the bytes buffered do not matter. -/
theorem internalStep_gap {m : Nat} {gap : Bytes} (t : Bytes) (x : U16) (h : ∀ b ∈ gap, b ≠ START) :
    internalStep m { phase := .seekStart, buf := gap ++ t, flen := x } =
      internalStep m { phase := .seekStart, buf := t, flen := x } := by
  have hfound := startIndex_gap_append t h
  cases ht : startIndex t with
  | none =>
    rw [ht] at hfound
    rw [internalStep_seekStart_none m rfl hfound, internalStep_seekStart_none m rfl ht]
  | some i =>
    rw [ht] at hfound
    rw [internalStep_seekStart_some m rfl hfound, internalStep_seekStart_some m rfl ht]
    simp [Nat.add_comm i]

/-- A step that waits has either kept all bytes or dropped bytes that do not matter. -/
theorem Settles.extend_of_wait {m : Nat} {f g k : Framer} {t : Bytes} {fs : List Frame}
    {ds : List FrameError} (h : internalStep m f = .ok (g, .wait))
    (hg : Settles m (g.extend t) fs ds k) : Settles m (f.extend t) fs ds k := by
  rcases internalStep_cases h with
    ⟨-, _, -, -, ⟨⟩⟩ | ⟨hp, hi, rfl, -⟩ | ⟨-, -, rfl, -⟩ | ⟨-, -, -, -, ⟨⟩⟩ |
    ⟨-, -, -, -, ⟨⟩⟩ | ⟨-, -, rfl, -⟩ | ⟨-, -, -, ⟨⟩⟩ | ⟨-, -, _, -, -, ⟨⟩⟩ |
    ⟨-, -, -, _, -, -, ⟨⟩⟩
  · refine .congr ?_ hg
    simp only [Framer.extend, hp, List.nil_append]
    exact internalStep_gap t f.flen (startIndex_none.mp hi)
  · exact hg
  · exact hg

/-- Bytes that come after a run of steps go on from where it ended. -/
theorem Settles.extend {m : Nat} {f g k : Framer} {trace : List StepResult} {t : Bytes}
    {fs : List Frame} {ds : List FrameError} (h : RunsUntilWait m f trace g)
    (hg : Settles m (g.extend t) fs ds k) :
    Settles m (f.extend t) (framesOf trace ++ fs) (diagsOf trace ++ ds) k := by
  induction h with
  | waits hstep => exact hg.extend_of_wait hstep
  | @goesOn f _ _ r rest hstep hr _ ih =>
    have hrun := Settles.step (internalStep_extend t hstep hr) hr (ih hg)
    rw [← List.append_assoc, ← List.append_assoc, ← framesOf_append, ← diagsOf_append] at hrun
    exact hrun

/-! ## Feeding is settling -/

/-- What a quiescent framer does with a chunk is what the steps do with the whole of it. -/
theorem settles_of_feedBytes {c : Config} {bs : Bytes} {f g : Framer} {trace : List StepResult}
    (hq : Quiescent c.maxLen f) (h : feedBytes c bs f = .ok (g, trace)) :
    Settles c.maxLen (f.extend bs) (framesOf trace) (diagsOf trace) g := by
  induction bs generalizing f trace with
  | nil =>
    cases h
    rw [Framer.extend_nil]
    exact .wait (internalStep_of_quiescent hq)
  | cons b rest ih =>
    obtain ⟨k, first, hpush, hruns, hk⟩ := pushByte_quiescent b hq
    simp only [feedBytes, hpush] at h
    obtain ⟨more, hmore, rfl⟩ := before_ok_iff.mp h
    have hrest := Settles.extend hruns (ih hk hmore)
    rw [framesOf_append, diagsOf_append]
    exact (f.extend_extend [b] rest) ▸ hrest

theorem Settles.unique {m : Nat} {f g h : Framer} {fs fs' : List Frame} {ds ds' : List FrameError}
    (hg : Settles m f fs ds g) (hh : Settles m f fs' ds' h) : fs = fs' ∧ ds = ds' ∧ g = h := by
  obtain ⟨t, ht, rfl, rfl⟩ := hg
  obtain ⟨u, hu, rfl, rfl⟩ := hh
  obtain ⟨rfl, rfl⟩ := runsUntilWait_unique ht hu
  exact ⟨rfl, rfl, rfl⟩

/-- The steps over the whole stream say what feeding it does. -/
theorem feedBytes_of_settles {c : Config} {bs : Bytes} {f g : Framer} {fs : List Frame}
    {ds : List FrameError} (hq : Quiescent c.maxLen f) (h : Settles c.maxLen (f.extend bs) fs ds g) :
    ∃ trace, feedBytes c bs f = .ok (g, trace) ∧ framesOf trace = fs ∧ diagsOf trace = ds ∧
      Quiescent c.maxLen g := by
  obtain ⟨k, trace, hfeed, hk⟩ := feedBytes_quiescent bs hq
  obtain ⟨hfs, hds, rfl⟩ := (settles_of_feedBytes hq hfeed).unique h
  exact ⟨trace, hfeed, hfs, hds, hk⟩

theorem exec_frmFeed_of_settles {bs : Bytes} {s : State} {g : Framer} {fs : List Frame}
    {ds : List FrameError} (hq : Quiescent s.config.maxLen s.frm)
    (h : Settles s.config.maxLen (s.frm.extend bs) fs ds g) :
    exec (.frmFeed bs) s =
      .next { s with
        frm := g
        results := s.results ++ [.frames fs (if s.config.diag then ds else [])] } := by
  obtain ⟨trace, hfeed, rfl, rfl, -⟩ := feedBytes_of_settles hq h
  exact exec_frmFeed_of_feedBytes hfeed

/-- With no resync the result is the frames alone, whatever `DIAG`. -/
theorem exec_frmFeed_of_settles_nil {bs : Bytes} {s : State} {g : Framer} {fs : List Frame}
    (hq : Quiescent s.config.maxLen s.frm) (h : Settles s.config.maxLen (s.frm.extend bs) fs [] g) :
    exec (.frmFeed bs) s =
      .next { s with frm := g, results := s.results ++ [.frames fs []] } := by
  simpa only [ite_self] using exec_frmFeed_of_settles hq h

/-! ## Candidates in a stream (rule R101) -/

/-- The framer that seeks a START in a stream, with what `FRM.FLEN` last held. -/
def seeking (t : Bytes) (x : U16) : Framer := { phase := .seekStart, buf := t, flen := x }

theorem Idle.eq_seeking {f : Framer} (h : Idle f) : f = seeking [] f.flen := by
  obtain ⟨hp, hb⟩ := h
  rw [seeking, ← hp, ← hb]

theorem Idle.extend {f : Framer} (h : Idle f) (t : Bytes) : f.extend t = seeking t f.flen := by
  rw [h.eq_seeking]; rfl

theorem idle_seeking_nil (x : U16) : Idle (seeking [] x) := ⟨rfl, rfl⟩

theorem Idle.quiescent {f : Framer} (m : Nat) (h : Idle f) : Quiescent m f := by
  simpa [Quiescent, h.1] using h.2

/-- The length that the candidate at the head of a stream declares. -/
abbrev candLen (t : Bytes) : Nat := (lenField t).toNat

/-- The candidate at the head of a stream declares a length that the framer accepts (rule R92). -/
abbrev LenAccepted (m : Nat) (t : Bytes) : Prop := 11 ≤ candLen t ∧ candLen t ≤ m

section
variable {m : Nat} {t rest : Bytes} {x : U16} {fs : List Frame} {ds : List FrameError} {g : Framer}

theorem settles_seeking_nil (m : Nat) (x : U16) : Settles m (seeking [] x) [] [] (seeking [] x) :=
  .wait (internalStep_of_quiescent ((idle_seeking_nil x).quiescent m))

theorem settles_gap {gap : Bytes} (h : ∀ b ∈ gap, b ≠ START)
    (hrun : Settles m (seeking t x) fs ds g) : Settles m (seeking (gap ++ t) x) fs ds g :=
  .congr (internalStep_gap t x h) hrun

theorem settles_start
    (hrun : Settles m { phase := .readLength, buf := START :: rest, flen := x } fs ds g) :
    Settles m (seeking (START :: rest) x) fs ds g := by
  have hfound : startIndex (seeking (START :: rest) x).buf = some 0 := if_pos rfl
  exact .step (internalStep_seekStart_some m rfl hfound) (by simp) hrun

theorem settles_short (h : (START :: rest).length < 3) :
    Settles m (seeking (START :: rest) x) [] []
      { phase := .readLength, buf := START :: rest, flen := x } :=
  settles_start (.wait (internalStep_readLength_wait m rfl h))

theorem settles_badLength (hlen : 3 ≤ (START :: rest).length)
    (hrange : ¬ LenAccepted m (START :: rest))
    (hrun : Settles m (seeking rest x) fs ds g) :
    Settles m (seeking (START :: rest) x) fs (.malformedHeader :: ds) g := by
  have hbad : lengthInRange m (lenField (START :: rest)) = false :=
    Bool.eq_false_iff.mpr fun h => hrange (lengthInRange_iff.mp h)
  have hstep := internalStep_readLength_resync m
    (f := { phase := .readLength, buf := START :: rest, flen := x }) rfl hlen hbad
  exact settles_start (.step hstep (by simp) hrun)

theorem settles_goodLength (hlen : 3 ≤ (START :: rest).length)
    (hrange : LenAccepted m (START :: rest))
    (hrun : Settles m { phase := .accumulateBody, buf := START :: rest,
                        flen := lenField (START :: rest) } fs ds g) :
    Settles m (seeking (START :: rest) x) fs ds g := by
  have hstep := internalStep_readLength_progress m
    (f := { phase := .readLength, buf := START :: rest, flen := x }) rfl hlen
    (lengthInRange_iff.mpr hrange)
  exact settles_start (.step hstep (by simp) hrun)

theorem settles_incomplete (m : Nat) {f : Framer} (hp : f.phase = .accumulateBody)
    (h : f.buf.length < f.flen.toNat) : Settles m f [] [] f :=
  .wait (by rw [internalStep_accumulateBody m hp, if_pos h])

theorem settles_complete (h : x.toNat ≤ t.length)
    (hrun : Settles m { phase := .emitOrResync, buf := t, flen := x } fs ds g) :
    Settles m { phase := .accumulateBody, buf := t, flen := x } fs ds g := by
  refine .step (r := .progress) ?_ (by simp) hrun
  rw [internalStep_accumulateBody m rfl]
  exact if_neg (Nat.not_lt.mpr h)

theorem settles_emit {fr : Frame} (h : x.toNat ≤ t.length) (hd : decodeFrame (t.take x.toNat) = .ok fr)
    (hrun : Settles m (seeking (t.drop x.toNat) x) fs ds g) :
    Settles m { phase := .accumulateBody, buf := t, flen := x } (fr :: fs) ds g :=
  settles_complete h (.step (internalStep_emitOrResync_emit m rfl h hd) (by simp) hrun)

theorem settles_fail {k : FrameError} (h : x.toNat ≤ t.length) (hne : t ≠ [])
    (hd : decodeFrame (t.take x.toNat) = .error k) (hrun : Settles m (seeking (t.drop 1) x) fs ds g) :
    Settles m { phase := .accumulateBody, buf := t, flen := x } fs (k :: ds) g :=
  settles_complete h (.step (internalStep_emitOrResync_resync m rfl h hne hd) (by simp) hrun)

/-- A candidate of accepted length goes on to its body. -/
theorem settles_candidate {len : U16} (hstart : t.head? = some START) (hlen : 3 ≤ t.length)
    (hfield : lenField t = len) (hmin : 11 ≤ len.toNat) (hmax : len.toNat ≤ m)
    (hrun : Settles m { phase := .accumulateBody, buf := t, flen := len } fs ds g) :
    Settles m (seeking t x) fs ds g := by
  subst hfield
  obtain ⟨rest, rfl⟩ := List.head?_eq_some_iff.mp hstart
  exact settles_goodLength hlen ⟨hmin, hmax⟩ hrun

/-! ## Valid frames in a stream -/

/-- A frame of accepted length at the head of a stream begins a candidate of its length. -/
theorem Frame.Valid.lenField_wire_append {f : Frame} (h : f.Valid) (t : Bytes) :
    lenField (f.wire ++ t) = f.length := by
  have hlen : 3 ≤ f.wire.length := by rw [Frame.wire_length]; omega
  rw [lenField_append t hlen]
  exact h.fields_wire.1

theorem Frame.Valid.le_length {f : Frame} (h : f.Valid) : 11 ≤ f.length.toNat := by
  obtain ⟨-, -, hlen, -⟩ := h
  omega

theorem settles_accumulate_wire {f : Frame} (hf : f.Valid)
    (hrun : Settles m (seeking t f.length) fs ds g) :
    Settles m { phase := .accumulateBody, buf := f.wire ++ t, flen := f.length } (f :: fs) ds g := by
  have hlen := hf.wire_length_eq
  refine settles_emit (by rw [List.length_append]; omega) ?_ ?_
  · rw [List.take_left' hlen, decodeFrame_wire hf]
  · rwa [List.drop_left' hlen]

/-- The first-frame law: a valid frame of accepted length at the head of a stream is emitted. -/
theorem settles_wire {f : Frame} (hf : f.Valid) (hmax : f.length.toNat ≤ m)
    (hrun : Settles m (seeking t f.length) fs ds g) :
    Settles m (seeking (f.wire ++ t) x) (f :: fs) ds g := by
  have hlen : 3 ≤ (f.wire ++ t).length := by rw [List.length_append, Frame.wire_length]; omega
  exact settles_candidate rfl hlen (hf.lenField_wire_append t) hf.le_length hmax
    (settles_accumulate_wire hf hrun)

end

/-- A valid frame of accepted length fed alone. -/
theorem settles_wire_alone {m : Nat} {f : Frame} (x : U16) (hf : f.Valid) (hmax : f.length.toNat ≤ m) :
    Settles m (seeking f.wire x) [f] [] (seeking [] f.length) := by
  simpa using settles_wire (x := x) hf hmax (settles_seeking_nil m f.length)

theorem exec_frmFeed_wire {f : Frame} {s : State} (hidle : Idle s.frm) (hf : f.Valid)
    (hmax : f.length.toNat ≤ s.config.maxLen) :
    exec (.frmFeed f.wire) s =
      .next { s with frm := seeking [] f.length, results := s.results ++ [.frames [f] []] } := by
  refine exec_frmFeed_of_settles_nil (hidle.quiescent _) ?_
  rw [hidle.extend]
  exact settles_wire_alone _ hf hmax

/-! ## The laws -/

theorem settles_layOut {m : Nat} {parts : List (Bytes × Frame)} (x : U16)
    (h : ∀ p ∈ parts, (∀ b ∈ p.1, b ≠ START) ∧ p.2.Valid ∧ p.2.length.toNat ≤ m) :
    ∃ y, Settles m (seeking (layOut parts) x) (parts.map Prod.snd) [] (seeking [] y) := by
  induction parts generalizing x with
  | nil => exact ⟨x, settles_seeking_nil m x⟩
  | cons p parts ih =>
    obtain ⟨hgap, hvalid, hmax⟩ := h p (by simp)
    obtain ⟨y, hrest⟩ := ih p.2.length fun q hq => h q (by simp [hq])
    refine ⟨y, ?_⟩
    have hlay : layOut (p :: parts) = p.1 ++ (p.2.wire ++ layOut parts) := by
      simp [layOut]
    rw [hlay]
    exact settles_gap hgap (settles_wire hvalid hmax hrest)

/-- Settles O39: gap by gap and frame by frame along the stream. -/
theorem framesWithStartFreeGapsAreReframedExactly :
    Obligations.FramesWithStartFreeGapsAreReframedExactly := by
  intro s parts hidle hparts
  obtain ⟨y, hrun⟩ := settles_layOut s.frm.flen hparts
  refine ⟨seeking [] y, idle_seeking_nil y, exec_frmFeed_of_settles_nil (hidle.quiescent _) ?_⟩
  rw [hidle.extend]
  exact hrun

/-- Settles O43: ENC.REQ returns the wire form of the record built of its operands. -/
theorem loopbackOfEncReqEmitsTheRequest : Obligations.LoopbackOfEncReqEmitsTheRequest := by
  intro dest src cmd payload s hidle hlen
  have hle : 11 + payload.length ≤ 65535 := Nat.le_trans hlen s.config.le_u16
  have hmax : (builtFrame dest src cmd payload).length.toNat ≤ s.config.maxLen := by
    rw [builtFrame, u16OfNat_toNat hle]; exact hlen
  refine ⟨s.returning (.bytes (encodeFrame dest src cmd payload)), _,
    by rw [exec_encReq, if_neg (Nat.not_lt.mpr hlen)], rfl, ?_⟩
  rw [← builtFrame_wire]
  exact exec_frmFeed_wire (s := s.returning _) hidle (builtFrame_valid hle) hmax

/-- A wire candidate whose tail is DATA, CRC and STOP is the encoded frame (rule R40). -/
theorem wireBytes_builtTail (dest src : U16) (cmd : Byte) (payload : Bytes) :
    wireBytes (u16OfNat (11 + payload.length)) dest src cmd (builtTail dest src cmd payload) =
      (builtFrame dest src cmd payload).wire := by
  rw [builtFrame_wire, encodeFrame, encodeBody, List.append_assoc]
  rfl

/-- Settles O45: every row delivers the encoded frame, and the framer does not look at CMD. -/
theorem validWireFramesAreEmittedWhateverTheirCommand :
    Obligations.ValidWireFramesAreEmittedWhateverTheirCommand := by
  intro dest src payload s hidle hlen L tail emitted
  have hle : 11 + payload.length ≤ 65535 := Nat.le_trans hlen s.config.le_u16
  have hfeed : ∀ cmd, exec (.frmFeed (wireBytes L dest src cmd (tail cmd))) s = emitted cmd := by
    intro cmd
    have hmax : (builtFrame dest src cmd payload).length.toNat ≤ s.config.maxLen := by
      rw [builtFrame, u16OfNat_toNat hle]; exact hlen
    rw [wireBytes_builtTail]
    exact exec_frmFeed_wire hidle (builtFrame_valid hle) hmax
  exact ⟨hfeed 0x02#8, hfeed 0x82#8, hfeed 0x03#8, hfeed 0x09#8, hfeed⟩

/-- Settles O42: the candidate waits. -/
theorem incompleteCandidateHoldsTheFramer : Obligations.IncompleteCandidateHoldsTheFramer := by
  intro bs s hq hp
  constructor
  · rw [Quiescent, hp] at hq
    obtain ⟨hmin, -, -, -, -, hmax⟩ := hq
    omega
  · intro hshort
    refine exec_frmFeed_of_settles_nil hq ?_
    exact settles_incomplete _ hp (by rw [Framer.extend, List.length_append]; exact hshort)

theorem exec_frmPush_eq_frmFeed (b : Byte) (s : State) :
    exec (.frmPush b) s = exec (.frmFeed [b]) s := by
  rw [exec_frmPush, exec_frmFeed, feedBytes_singleton]

theorem dropLast_append_getD {r : Bytes} (h : r ≠ []) :
    r.dropLast ++ [r.getD (r.length - 1) 0#8] = r := by
  have hlast : r.length - 1 < r.length := Nat.sub_lt (List.length_pos_iff.mpr h) Nat.one_pos
  rw [List.getD_eq_getElem _ _ hlast, ← List.getLast_eq_getElem h, List.dropLast_append_getLast]

/-- All but the last byte of a frame are a candidate that waits. -/
theorem settles_wire_dropLast {m : Nat} {f : Frame} (x : U16) (hf : f.Valid)
    (hmax : f.length.toNat ≤ m) :
    Settles m (seeking f.wire.dropLast x) [] []
      { phase := .accumulateBody, buf := f.wire.dropLast, flen := f.length } := by
  have hne : f.wire ≠ [] := List.cons_ne_nil _ _
  have hlen : f.wire.dropLast.length = f.length.toNat - 1 := by
    rw [List.length_dropLast, hf.wire_length_eq]
  have hmin := hf.le_length
  have hfield : lenField f.wire.dropLast = f.length := by
    rw [← lenField_append [f.wire.getD (f.wire.length - 1) 0#8] (by omega), dropLast_append_getD hne]
    exact hf.fields_wire.1
  exact settles_candidate rfl (by omega) hfield hmin hmax
    (settles_incomplete m rfl (by simp only; omega))

/-- Settles O38: one byte short the candidate waits; the last byte completes it. -/
theorem firstFrameIsEmittedAtItsLastByte : Obligations.FirstFrameIsEmittedAtItsLastByte := by
  intro s gap r hidle hgap hr hmax
  obtain ⟨f, hf, rfl, hd⟩ := exists_wire_of_validFrame hr
  have hlen : f.length.toNat ≤ s.config.maxLen := hf.wire_length_eq ▸ hmax
  have hhead : Settles s.config.maxLen (s.frm.extend (gap ++ f.wire.dropLast)) [] []
      { phase := .accumulateBody, buf := f.wire.dropLast, flen := f.length } := by
    rw [hidle.extend]
    exact settles_gap hgap (settles_wire_dropLast _ hf hlen)
  have hq := hidle.quiescent s.config.maxLen
  obtain ⟨-, -, -, -, hq1⟩ := feedBytes_of_settles hq hhead
  refine ⟨f, _, hd, exec_frmFeed_of_settles_nil hq hhead, rfl, ?_⟩
  rw [exec_frmPush_eq_frmFeed, exec_frmFeed_of_settles_nil (fs := [f]) (g := seeking [] f.length) hq1]
  · rw [List.append_assoc]; rfl
  · rw [Framer.extend]
    simp only [dropLast_append_getD (r := f.wire) (List.cons_ne_nil _ _)]
    simpa using settles_accumulate_wire hf (settles_seeking_nil _ f.length)

/-! ## Noise between frames (rule R103) -/

/-- A candidate that is no valid frame is an error of `decode`. -/
theorem decodeFrame_error_of_not_validFrame {r : Bytes} (h : ¬ ValidFrame r) :
    ∃ k, decodeFrame r = .error k := by
  cases hd : decodeFrame r with
  | error k => exact ⟨k, rfl⟩
  | ok f => exact absurd (exists_decodeFrame_ok_iff.mp ⟨f, hd⟩) h

/-- The side condition of rule R103: no START byte of the noise begins a candidate that is valid or
that overruns the stream. -/
def Harmless (m : Nat) (noise after : Bytes) : Prop :=
  ∀ p < noise.length, (noise ++ after).getD p 0#8 = START →
    ¬ LenAccepted m ((noise ++ after).drop p) ∨
      (candLen ((noise ++ after).drop p) ≤ ((noise ++ after).drop p).length ∧
        ¬ ValidFrame (((noise ++ after).drop p).take (candLen ((noise ++ after).drop p))))

theorem Harmless.tail {m : Nat} {b : Byte} {noise after : Bytes} (h : Harmless m (b :: noise) after) :
    Harmless m noise after := fun p hp hstart =>
  h (p + 1) (Nat.succ_lt_succ hp) hstart

/-- Harmless noise is dropped, resync by resync, up to the frame behind it. -/
theorem settles_noise {m : Nat} {f : Frame} {noise : Bytes} (x : U16) (hf : f.Valid)
    (hmax : f.length.toNat ≤ m) (h : Harmless m noise f.wire) :
    ∃ y ds, Settles m (seeking (noise ++ f.wire) x) [f] ds (seeking [] y) := by
  induction noise generalizing x with
  | nil => exact ⟨_, _, settles_wire_alone x hf hmax⟩
  | cons b noise ih =>
    by_cases hb : b = START
    · subst hb
      have hlen : 3 ≤ (START :: (noise ++ f.wire)).length := by simp; omega
      by_cases hrange : LenAccepted m (START :: (noise ++ f.wire))
      · obtain hout | ⟨hfits, hinvalid⟩ := h 0 (Nat.succ_pos _) rfl
        · exact absurd hrange hout
        · obtain ⟨k, hk⟩ := decodeFrame_error_of_not_validFrame hinvalid
          obtain ⟨y, ds, hrun⟩ := ih (lenField (START :: (noise ++ f.wire))) h.tail
          exact ⟨y, _, settles_goodLength hlen hrange
            (settles_fail hfits (List.cons_ne_nil _ _) hk hrun)⟩
      · obtain ⟨y, ds, hrun⟩ := ih x h.tail
        exact ⟨y, _, settles_badLength hlen hrange hrun⟩
    · obtain ⟨y, ds, hrun⟩ := ih x h.tail
      exact ⟨y, ds, settles_gap (gap := [b]) (by simpa using hb) hrun⟩

/-- Settles O40: the first frame, the noise dropped, the second frame. -/
theorem resyncRecoversTheSecondFrame : Obligations.ResyncRecoversTheSecondFrame := by
  intro s f1 f2 noise hidle h1 hmax1 h2 hmax2 hnoise
  have hharmless : Harmless s.config.maxLen noise f2.wire := by
    intro p hp hstart
    have hL := lenField_toNat ((noise ++ f2.wire).drop p)
    rw [getD_drop, getD_drop] at hL
    rw [LenAccepted, candLen, hL, List.length_drop]
    rcases hnoise p hp hstart with hout | ⟨hfits, hinvalid⟩
    · exact .inl (by omega)
    · exact .inr ⟨by omega, hinvalid⟩
  obtain ⟨y, ds, hrun⟩ := settles_noise f1.length h2 hmax2 hharmless
  have hall : Settles s.config.maxLen (s.frm.extend (f1.wire ++ noise ++ f2.wire)) [f1, f2] ds
      (seeking [] y) := by
    rw [hidle.extend, List.append_assoc]
    exact settles_wire h1 hmax1 hrun
  exact ⟨seeking [] y, _, idle_seeking_nil y, exec_frmFeed_of_settles (hidle.quiescent _) hall⟩

/-! ## `scan` (rule R101) -/

theorem scanUpTo_cons (m n : Nat) (b : Byte) (rest : Bytes) :
    scanUpTo m (n + 1) (b :: rest) =
      if b ≠ START then scanUpTo m n rest
      else if (b :: rest).length < 3 then []
      else if candLen (b :: rest) < 11 ∨ m < candLen (b :: rest) then
        scanUpTo m n rest
      else if (b :: rest).length < candLen (b :: rest) then []
      else if ValidFrame ((b :: rest).take (candLen (b :: rest))) then
        (b :: rest).take (candLen (b :: rest)) ::
          scanUpTo m n ((b :: rest).drop (candLen (b :: rest)))
      else scanUpTo m n rest := by
  rw [candLen, lenField_toNat]; rfl

/-- As many calls as there are bytes are enough. -/
theorem scanUpTo_eq {m n k : Nat} {s : Bytes} (hn : s.length ≤ n) (hk : s.length ≤ k) :
    scanUpTo m n s = scanUpTo m k s := by
  induction n generalizing k s with
  | zero =>
    rw [List.length_eq_zero_iff.mp (Nat.le_zero.mp hn)]
    cases k <;> rfl
  | succ n ih => cases s with
    | nil => cases k <;> rfl
    | cons b rest => cases k with
      | zero => exact absurd hk (by simp)
      | succ k =>
        have hrest : scanUpTo m n rest = scanUpTo m k rest :=
          ih (Nat.le_of_succ_le_succ hn) (Nat.le_of_succ_le_succ hk)
        rw [scanUpTo_cons, scanUpTo_cons, hrest]
        by_cases hbad : candLen (b :: rest) < 11 ∨ m < candLen (b :: rest)
        · simp only [if_pos hbad]
        · have hshorter : ((b :: rest).drop (candLen (b :: rest))).length ≤ rest.length := by
            simp only [List.length_drop, List.length_cons]; omega
          rw [ih (Nat.le_trans hshorter (Nat.le_of_succ_le_succ hn))
            (Nat.le_trans hshorter (Nat.le_of_succ_le_succ hk))]

/-- The recursion of rule R101 in one equation. -/
theorem scan_cons (m : Nat) (b : Byte) (rest : Bytes) :
    scan m (b :: rest) =
      if b ≠ START then scan m rest
      else if (b :: rest).length < 3 then []
      else if candLen (b :: rest) < 11 ∨ m < candLen (b :: rest) then scan m rest
      else if (b :: rest).length < candLen (b :: rest) then []
      else if ValidFrame ((b :: rest).take (candLen (b :: rest))) then
        (b :: rest).take (candLen (b :: rest)) ::
          scan m ((b :: rest).drop (candLen (b :: rest)))
      else scan m rest := by
  rw [scan, List.length_cons, scanUpTo_cons]
  by_cases hbad : candLen (b :: rest) < 11 ∨ m < candLen (b :: rest)
  · simp only [if_pos hbad]; rfl
  · have hshorter : ((b :: rest).drop (candLen (b :: rest))).length ≤ rest.length := by
      simp only [List.length_drop, List.length_cons]; omega
    rw [scanUpTo_eq hshorter (Nat.le_refl _)]; rfl

section
variable {m : Nat} {rest : Bytes}

theorem scan_other {b : Byte} (hb : b ≠ START) : scan m (b :: rest) = scan m rest := by
  rw [scan_cons, if_pos hb]

theorem scan_short (h : (START :: rest).length < 3) : scan m (START :: rest) = [] := by
  rw [scan_cons, if_neg (by simp), if_pos h]

theorem scan_badLength (hlen : 3 ≤ (START :: rest).length)
    (hrange : ¬ LenAccepted m (START :: rest)) :
    scan m (START :: rest) = scan m rest := by
  rw [scan_cons, if_neg (by simp), if_neg (Nat.not_lt.mpr hlen), if_pos (by omega)]

variable (hlen : 3 ≤ (START :: rest).length)
  (hrange : LenAccepted m (START :: rest))
include hlen hrange

theorem scan_incomplete (h : (START :: rest).length < candLen (START :: rest)) :
    scan m (START :: rest) = [] := by
  rw [scan_cons, if_neg (by simp), if_neg (Nat.not_lt.mpr hlen), if_neg (by omega), if_pos h]

theorem scan_valid (h : candLen (START :: rest) ≤ (START :: rest).length)
    (hv : ValidFrame ((START :: rest).take (candLen (START :: rest)))) :
    scan m (START :: rest) =
      (START :: rest).take (candLen (START :: rest)) ::
        scan m ((START :: rest).drop (candLen (START :: rest))) := by
  rw [scan_cons, if_neg (by simp), if_neg (Nat.not_lt.mpr hlen), if_neg (by omega),
    if_neg (Nat.not_lt.mpr h), if_pos hv]

theorem scan_invalid (h : candLen (START :: rest) ≤ (START :: rest).length)
    (hv : ¬ ValidFrame ((START :: rest).take (candLen (START :: rest)))) :
    scan m (START :: rest) = scan m rest := by
  rw [scan_cons, if_neg (by simp), if_neg (Nat.not_lt.mpr hlen), if_neg (by omega),
    if_neg (Nat.not_lt.mpr h), if_neg hv]

end

/-- The cases of rule R101, with what `scan` goes on with in each: the induction that every fact about
`scan` and the framer follows. -/
theorem scan_induction {m : Nat} {P : Bytes → Prop} (nil : P [])
    (other : ∀ b rest, b ≠ START → P rest → P (b :: rest))
    (short : ∀ rest, (START :: rest).length < 3 → P (START :: rest))
    (badLength : ∀ rest, 3 ≤ (START :: rest).length →
      ¬ LenAccepted m (START :: rest) →
      P rest → P (START :: rest))
    (incomplete : ∀ rest, 3 ≤ (START :: rest).length →
      LenAccepted m (START :: rest) →
      (START :: rest).length < candLen (START :: rest) → P (START :: rest))
    (valid : ∀ rest, 3 ≤ (START :: rest).length →
      LenAccepted m (START :: rest) →
      candLen (START :: rest) ≤ (START :: rest).length →
      ValidFrame ((START :: rest).take (candLen (START :: rest))) →
      P ((START :: rest).drop (candLen (START :: rest))) → P (START :: rest))
    (invalid : ∀ rest, 3 ≤ (START :: rest).length →
      LenAccepted m (START :: rest) →
      candLen (START :: rest) ≤ (START :: rest).length →
      ¬ ValidFrame ((START :: rest).take (candLen (START :: rest))) →
      P rest → P (START :: rest))
    (s : Bytes) : P s := by
  induction hn : s.length using Nat.strong_induction_on generalizing s with
  | _ n ih => cases s with
    | nil => exact nil
    | cons b rest =>
      subst hn
      have hrest : P rest := ih rest.length (Nat.lt_succ_self _) rest rfl
      by_cases hb : b = START
      · subst hb
        by_cases hlen : (START :: rest).length < 3
        · exact short rest hlen
        have hlen' := Nat.le_of_not_lt hlen
        by_cases hrange : LenAccepted m (START :: rest)
        · by_cases hfits : (START :: rest).length < candLen (START :: rest)
          · exact incomplete rest hlen' hrange hfits
          have hfits' := Nat.le_of_not_lt hfits
          by_cases hv : ValidFrame ((START :: rest).take (candLen (START :: rest)))
          · refine valid rest hlen' hrange hfits' hv (ih _ ?_ _ rfl)
            rw [List.length_drop]; omega
          · exact invalid rest hlen' hrange hfits' hv hrest
        · exact badLength rest hlen' hrange hrest
      · exact other b rest hb hrest

/-- Frames once found are found in every continuation of the stream. -/
theorem scan_prefix (m : Nat) (s t : Bytes) : scan m s <+: scan m (s ++ t) := by
  have hlonger : ∀ {rest : Bytes} {n : Nat}, n ≤ (START :: rest).length →
      n ≤ (START :: (rest ++ t)).length := fun h => by
    simp only [List.length_cons, List.length_append] at h ⊢; omega
  have hfield : ∀ {rest : Bytes}, 3 ≤ (START :: rest).length →
      candLen (START :: (rest ++ t)) = candLen (START :: rest) :=
    fun h => congrArg BitVec.toNat (lenField_append t h)
  have haccepted : ∀ {rest : Bytes}, 3 ≤ (START :: rest).length →
      (LenAccepted m (START :: (rest ++ t)) ↔ LenAccepted m (START :: rest)) := fun h => by
    rw [LenAccepted, LenAccepted, hfield h]
  have htake : ∀ {rest : Bytes} {n : Nat}, n ≤ (START :: rest).length →
      (START :: (rest ++ t)).take n = (START :: rest).take n := List.take_append_of_le_length
  have hdrop : ∀ {rest : Bytes} {n : Nat}, n ≤ (START :: rest).length →
      (START :: (rest ++ t)).drop n = (START :: rest).drop n ++ t := List.drop_append_of_le_length
  induction s using scan_induction (m := m) with
  | nil => exact List.nil_prefix
  | other b rest hb ih => rwa [List.cons_append, scan_other hb, scan_other hb]
  | short rest hlen => rw [scan_short hlen]; exact List.nil_prefix
  | badLength rest hlen hrange ih =>
    rwa [List.cons_append, scan_badLength hlen hrange,
      scan_badLength (hlonger hlen) (by rwa [haccepted hlen])]
  | incomplete rest hlen hrange hfits =>
    rw [scan_incomplete hlen hrange hfits]; exact List.nil_prefix
  | valid rest hlen hrange hfits hv ih =>
    rw [List.cons_append, scan_valid hlen hrange hfits hv,
      scan_valid (hlonger hlen) ((haccepted hlen).mpr hrange)
        (by rw [hfield hlen]; exact hlonger hfits) (by rwa [hfield hlen, htake hfits]),
      hfield hlen, htake hfits, hdrop hfits]
    exact (List.prefix_cons_inj _).mpr ih
  | invalid rest hlen hrange hfits hv ih =>
    rwa [List.cons_append, scan_invalid hlen hrange hfits hv,
      scan_invalid (hlonger hlen) ((haccepted hlen).mpr hrange)
        (by rw [hfield hlen]; exact hlonger hfits) (by rwa [hfield hlen, htake hfits])]

/-- Settles O33: the lines of the recursion, and the continuation line by line. -/
theorem scanIsItsRecursionAndMonotone : Obligations.ScanIsItsRecursionAndMonotone := by
  refine ⟨fun m => rfl, ?_, scan_prefix⟩
  intro m b rest s L
  have hL : candLen (b :: rest) = L := lenField_toNat _
  clear_value L
  subst hL
  refine ⟨scan_other, ?_, ?_, ?_, ?_, ?_⟩
  · rintro rfl hlen
    exact scan_short hlen
  · rintro rfl hlen hbad
    exact scan_badLength hlen fun h =>
      hbad.elim (fun hlt => Nat.not_le.mpr hlt h.1) (fun hlt => Nat.not_le.mpr hlt h.2)
  · rintro rfl hmin hmax hlen hfits
    exact scan_incomplete hlen ⟨hmin, hmax⟩ hfits
  · rintro rfl hmin hmax hfits hv
    exact scan_valid (Nat.le_trans (by decide) (Nat.le_trans hmin hfits)) ⟨hmin, hmax⟩ hfits hv
  · rintro rfl hmin hmax hfits hv
    exact scan_invalid (Nat.le_trans (by decide) (Nat.le_trans hmin hfits)) ⟨hmin, hmax⟩ hfits hv

/-- From a framer that seeks, the frames emitted over a stream are, in wire form, `scan` of it. -/
theorem settles_scan {m : Nat} (s : Bytes) (x : U16) :
    ∃ fs ds g, Settles m (seeking s x) fs ds g ∧ fs.map Frame.wire = scan m s := by
  induction s using scan_induction (m := m) generalizing x with
  | nil => exact ⟨_, _, _, settles_seeking_nil m x, rfl⟩
  | other b rest hb ih =>
    obtain ⟨fs, ds, g, hrun, hscan⟩ := ih x
    exact ⟨fs, ds, g, settles_gap (gap := [b]) (by simpa using hb) hrun,
      hscan.trans (scan_other hb).symm⟩
  | short rest hlen => exact ⟨_, _, _, settles_short hlen, (scan_short hlen).symm⟩
  | badLength rest hlen hrange ih =>
    obtain ⟨fs, ds, g, hrun, hscan⟩ := ih x
    exact ⟨_, _, g, settles_badLength hlen hrange hrun, hscan.trans (scan_badLength hlen hrange).symm⟩
  | incomplete rest hlen hrange hfits =>
    exact ⟨_, _, _, settles_goodLength hlen hrange (settles_incomplete m rfl hfits),
      (scan_incomplete hlen hrange hfits).symm⟩
  | valid rest hlen hrange hfits hv ih =>
    obtain ⟨f, -, hwire, hd⟩ := exists_wire_of_validFrame hv
    obtain ⟨fs, ds, g, hrun, hscan⟩ := ih (lenField (START :: rest))
    refine ⟨_, _, g, settles_goodLength hlen hrange (settles_emit hfits hd hrun), ?_⟩
    rw [scan_valid hlen hrange hfits hv, List.map_cons, hscan, hwire]
  | invalid rest hlen hrange hfits hv ih =>
    obtain ⟨k, hd⟩ := decodeFrame_error_of_not_validFrame hv
    obtain ⟨fs, ds, g, hrun, hscan⟩ := ih (lenField (START :: rest))
    exact ⟨_, _, g, settles_goodLength hlen hrange
      (settles_fail hfits (List.cons_ne_nil _ _) hd hrun),
      hscan.trans (scan_invalid hlen hrange hfits hv).symm⟩

/-- Settles O32: chunks are fed as their concatenation is, and the steps over it emit its `scan`. -/
theorem chunkedFeedsEqualScan : Obligations.ChunkedFeedsEqualScan := by
  intro chunks s hidle
  have hq := hidle.quiescent s.config.maxLen
  obtain ⟨g, trace, rs, hfeed, hexec, hres⟩ := execAll_frmFeed_of_quiescent chunks hq
  obtain ⟨fs, ds, k, hrun, hscan⟩ := settles_scan (m := s.config.maxLen) chunks.flatten s.frm.flen
  have hsettles := settles_of_feedBytes hq hfeed
  rw [hidle.extend] at hsettles
  obtain ⟨hfs, -, -⟩ := hsettles.unique hrun
  obtain ⟨hframes, -⟩ := Result.frames.inj hres
  exact ⟨_, rs, hexec, rfl, by rw [← hframes, hfs, hscan]⟩

end Sys2Proof.Machine
end

section
/-! PROOFS. The instructions and the state they touch (10_state.md rules R10, R11, R21; 20_memory.md
rules R35, R39; 60_exceptions.md rule R131): the bytes an instruction delivers at `RX`, and that an
instruction reads and writes its own unit's state alone. -/

namespace Sys2Proof.Machine

/-! ## Delivery at `RX` (rules R21, R96; notes: assumption 5) -/

/-- The bytes an instruction delivers at the `RX` port. -/
def rxChunk : Instr → Option Bytes
  | .frmPush b => some [b]
  | .frmFeed s => some s
  | .readReq len dest src tail => some (wireBytes len dest src CMD_READ_REQ tail)
  | .readResp len dest src tail => some (wireBytes len dest src CMD_READ_RESP tail)
  | .writeReq len dest src tail => some (wireBytes len dest src CMD_WRITE_REQ tail)
  | .ping len dest src tail => some (wireBytes len dest src CMD_PING tail)
  | .frame len dest src cmd tail => some (wireBytes len dest src cmd tail)
  | .crcClr | .crcUpd _ | .crcRd | .crcCompute _ | .crcVerify _ _ | .encReq _ _ _ _ | .decFrame _
  | .frmRst => none

/-- An instruction that delivers bytes is FRM.FEED of them. -/
theorem exec_of_rxChunk {i : Instr} {bs : Bytes} (h : rxChunk i = some bs) (s : State) :
    exec i s = exec (.frmFeed bs) s := by
  cases i <;> cases h
  case frmPush b => exact exec_frmPush_eq_frmFeed b s
  all_goals rfl

theorem unitOf_of_rxChunk {i : Instr} {bs : Bytes} (h : rxChunk i = some bs) :
    unitOf i = .streamFramer := by
  cases i <;> cases h <;> rfl



theorem exec_frmFeed_of_quiescent (bs : Bytes) {s : State} (hq : Quiescent s.config.maxLen s.frm) :
    ∃ g trace, feedBytes s.config bs s.frm = .ok (g, trace) ∧ Quiescent s.config.maxLen g ∧
      exec (.frmFeed bs) s = .next ((s.setFrm g).returning (framerResult s.config trace)) := by
  obtain ⟨g, trace, hfeed, hg⟩ := feedBytes_quiescent bs hq
  exact ⟨g, trace, hfeed, hg, exec_frmFeed_of_feedBytes hfeed⟩

/-- Settles O44: each row is FRM.FEED of its bytes, which is answered. -/
theorem wireRowsDeliverTheirBytes : Obligations.WireRowsDeliverTheirBytes := by
  intro len dest src tail s hq bytes
  have hfeed : ∀ cmd, ∃ t, exec (.frmFeed (bytes cmd)) s = .next t ∧
      exec (.frmFeed (bytes cmd)) s = .next t := fun cmd => by
    obtain ⟨_, _, -, -, hexec⟩ := exec_frmFeed_of_quiescent (bytes cmd) hq
    exact ⟨_, hexec, hexec⟩
  exact ⟨hfeed 0x02#8, hfeed 0x82#8, hfeed 0x03#8, hfeed 0x09#8, hfeed⟩

/-! ## Bus traffic -/

/-- Every row of format `WIRE` asks for START at offset 0. -/
theorem wireTable_start : ∀ row ∈ wireTable,
    row.mask &&& 0xFF00000000000000#64 = 0xFF00000000000000#64 ∧
      row.pattern &&& 0xFF00000000000000#64 = headerWord START 0#8 0#8 0#8 0#8 0#8 0#8 0#8 := by
  decide

theorem start_of_selectWire {b0 l0 l1 d0 d1 s0 s1 c : Byte} {k : WireKind}
    (h : selectWire (headerWord b0 l0 l1 d0 d1 s0 s1 c) = some k) : b0 = START := by
  obtain ⟨row, hrow, -⟩ := Option.map_eq_some_iff.mp h
  obtain ⟨hmask, hpattern⟩ := wireTable_start row (List.mem_of_find?_eq_some hrow)
  have hsel : headerWord b0 l0 l1 d0 d1 s0 s1 c &&& row.mask = row.pattern := by
    simpa [WireRow.selects] using List.find?_some hrow
  refine (headerWord_startMask b0 l0 l1 d0 d1 s0 s1 c).mp ?_
  rw [← hpattern, ← hsel, BitVec.and_assoc, hmask]

/-- The row chosen by CMD delivers the candidate with that CMD. -/
theorem rxChunk_instr {k : WireKind} {len dest src : U16} {cmd : Byte} {tail : Bytes}
    (hk : (if cmd = CMD_READ_REQ then .readReq else if cmd = CMD_READ_RESP then .readResp
        else if cmd = CMD_WRITE_REQ then .writeReq else if cmd = CMD_PING then .ping
        else .frame) = k) :
    rxChunk (k.instr len dest src cmd tail) = some (wireBytes len dest src cmd tail) := by
  subst hk
  by_cases h1 : cmd = CMD_READ_REQ
  · subst h1; rfl
  by_cases h2 : cmd = CMD_READ_RESP
  · subst h2; rfl
  by_cases h3 : cmd = CMD_WRITE_REQ
  · subst h3; rfl
  by_cases h4 : cmd = CMD_PING
  · subst h4; rfl
  rw [if_neg h1, if_neg h2, if_neg h3, if_neg h4]
  rfl

/-- A whole candidate in traffic delivers the bytes it was read from. -/
theorem wireFrame_some {bs rest : Bytes} {i : Instr} (h : wireFrame bs = some (i, rest)) :
    ∃ taken, taken ≠ [] ∧ bs = taken ++ rest ∧ rxChunk i = some taken := by
  unfold wireFrame at h
  split at h
  · rename_i b0 l0 l1 d0 d1 s0 s1 c body
    split at h
    · cases h
    · rename_i k hk
      obtain rfl := start_of_selectWire hk
      rw [selectWire_of_start, Option.some.injEq] at hk
      dsimp only at h
      split at h
      · rename_i hlen
        cases h
        refine ⟨_, ?_, ?_, rxChunk_instr hk⟩
        · exact List.cons_ne_nil _ _
        · simp [wireBytes, headerBytes, u16Bytes]
      · cases h
  · cases h

/-- Settles O60: a whole candidate or one byte is taken, and delivered. -/
theorem trafficIsDeliveredWhole : Obligations.TrafficIsDeliveredWhole := by
  intro bs hne
  obtain ⟨b, rest, rfl⟩ := List.exists_cons_of_ne_nil hne
  cases hw : wireFrame (b :: rest) with
  | some p =>
    obtain ⟨i, rest'⟩ := p
    obtain ⟨taken, htaken, hsplit, hrx⟩ := wireFrame_some hw
    exact ⟨i, taken, rest', decodeTraffic_of_wireFrame hw, htaken, hsplit, exec_of_rxChunk hrx⟩
  | none =>
    refine ⟨.frmPush b, [b], rest, ?_, List.cons_ne_nil _ _, rfl, exec_of_rxChunk rfl⟩
    simp only [decodeTraffic, hw]

/-! ## What an instruction reads and writes -/

/-- The state after an instruction: `CRCREG` by the serial operations, the framer `g` where the
instruction is one of its own, the results `rs` added. -/
def State.advance (s : State) (i : Instr) (g : Framer) (rs : List Result) : State :=
  { s with
    crcReg := crcRegEffect s.crcReg i
    frm := if unitOf i = .streamFramer then g else s.frm
    results := s.results ++ rs }

theorem advance_nil (s : State) (i : Instr) (g : Framer) :
    s.advance i g [] =
      (s.setCrcReg (crcRegEffect s.crcReg i)).setFrm
        (if unitOf i = .streamFramer then g else s.frm) := by
  simp [State.advance, State.setCrcReg, State.setFrm]

theorem crcRegEffect_of_ne {i : Instr} (h : unitOf i ≠ .crcSerial) (c : U16) : crcRegEffect c i = c := by
  cases i with
  | crcClr | crcUpd => exact absurd rfl h
  | _ => rfl

/-- An instruction that answers a next state reads the configuration and its own unit's state, and
does the same in every state that agrees on them. -/
theorem exec_locality {i : Instr} {s t : State} (h : exec i s = .next t) :
    ∃ g rs, rs.length ≤ 1 ∧ ∀ s' : State, s'.config = s.config →
      (unitOf i = .crcSerial → s'.crcReg = s.crcReg) →
      (unitOf i = .streamFramer → s'.frm = s.frm) → exec i s' = .next (s'.advance i g rs) := by
  cases hrx : rxChunk i with
  | some bs =>
    rw [exec_of_rxChunk hrx, exec_frmFeed] at h
    obtain ⟨g, trace, hfeed, -⟩ := framerOutcome_next h
    have hu := unitOf_of_rxChunk hrx
    refine ⟨g, [framerResult s.config trace], Nat.le_refl 1, fun s' hc _ hf => ?_⟩
    rw [exec_of_rxChunk hrx, exec_frmFeed, hc, hf hu, hfeed, framerOutcome_ok, hc, State.advance,
      if_pos hu, crcRegEffect_of_ne (by rw [hu]; decide)]
    rfl
  | none => cases i with
    | crcClr => exact ⟨s.frm, [], Nat.zero_le 1, fun s' _ _ _ => by rw [advance_nil]; rfl⟩
    | crcUpd b => exact ⟨s.frm, [], Nat.zero_le 1, fun s' _ _ _ => by rw [advance_nil]; rfl⟩
    | frmRst => exact ⟨Framer.reset, [], Nat.zero_le 1, fun s' _ _ _ => by rw [advance_nil]; rfl⟩
    | crcRd =>
      exact ⟨s.frm, [.u16 s.crcReg], Nat.le_refl 1, fun s' _ hreg _ => by rw [← hreg rfl]; rfl⟩
    | crcCompute bs => exact ⟨s.frm, [.u16 (crc16 bs)], Nat.le_refl 1, fun _ _ _ _ => rfl⟩
    | crcVerify bs e => exact ⟨s.frm, [.bool (crc16 bs == e)], Nat.le_refl 1, fun _ _ _ _ => rfl⟩
    | decFrame r => exact ⟨s.frm, [decodeResult r], Nat.le_refl 1, fun _ _ _ _ => rfl⟩
    | encReq dest src cmd payload =>
      refine ⟨s.frm, [.bytes (encodeFrame dest src cmd payload)], Nat.le_refl 1,
        fun s' hc _ _ => ?_⟩
      rw [exec_encReq] at h
      split at h
      · cases h
      · rename_i hfits
        rw [exec_encReq, hc, if_neg hfits]
        rfl
    | _ => cases hrx

theorem exec_next_eq_advance {i : Instr} {s t : State} (h : exec i s = .next t) :
    ∃ g rs, rs.length ≤ 1 ∧ t = s.advance i g rs := by
  obtain ⟨g, rs, hrs, hexec⟩ := exec_locality h
  have hself := hexec s rfl (fun _ => rfl) fun _ => rfl
  rw [h, Host.Outcome.next.injEq] at hself
  exact ⟨g, rs, hrs, hself⟩

/-- Settles O50: the state after an instruction, field by field. -/
theorem unitsTouchOnlyTheirOwnState : Obligations.UnitsTouchOnlyTheirOwnState := by
  intro i s t h
  obtain ⟨g, rs, hrs, rfl⟩ := exec_next_eq_advance h
  refine ⟨rfl, rfl, ⟨rs, rfl, hrs⟩, ?_, fun hu => if_neg hu⟩
  rintro (hu | rfl)
  · exact crcRegEffect_of_ne hu s.crcReg
  · rfl

/-- Settles O52: the pending input and the earlier results are not read. -/
theorem outcomeDependsOnlyOnBlockState : Obligations.OutcomeDependsOnlyOnBlockState := by
  intro i s t x y h
  obtain ⟨g, rs, -, hexec⟩ := exec_locality h
  have hself := hexec s rfl (fun _ => rfl) fun _ => rfl
  rw [h, Host.Outcome.next.injEq] at hself
  subst hself
  exact ⟨rs, rfl, hexec { s with input := x, results := y } rfl (fun _ => rfl) fun _ => rfl⟩

/-- Settles O51: neither operation writes what the other reads, so each does after the other what it
does alone. -/
theorem operationsOfDifferentUnitsCommute : Obligations.OperationsOfDifferentUnitsCommute := by
  intro i j s a b hu hi hj
  have hother : ∀ u, u ≠ .stateless → unitOf i = u → unitOf j ≠ u := fun u hstate hiu hju =>
    hu.elim (fun hne => hne (hiu.trans hju.symm)) fun hless => hstate (hiu.symm.trans hless)
  obtain ⟨gi, ri, -, hi'⟩ := exec_locality hi
  obtain ⟨gj, rj, -, hj'⟩ := exec_locality hj
  have ha := hi' s rfl (fun _ => rfl) fun _ => rfl
  have hb := hj' a rfl (fun _ => rfl) fun _ => rfl
  rw [hi, Host.Outcome.next.injEq] at ha
  rw [hj, Host.Outcome.next.injEq] at hb
  subst ha hb
  have hregi : unitOf j = .crcSerial → ∀ c, crcRegEffect c i = c := fun hju =>
    crcRegEffect_of_ne fun hiu => hother _ (by decide) hiu hju
  have hregj : unitOf i = .crcSerial → ∀ c, crcRegEffect c j = c := fun hiu =>
    crcRegEffect_of_ne (hother _ (by decide) hiu)
  refine ⟨s.advance j gj rj, ri, rj, rfl, rfl, hj' s rfl (fun hju => (hregi hju _).symm)
    (fun hju => (if_neg fun hiu => hother _ (by decide) hiu hju).symm), rfl, ?_⟩
  rw [hi' (s.advance j gj rj) rfl (fun hiu => hregj hiu _)
    (fun hiu => if_neg (hother _ (by decide) hiu))]
  have hreg : crcRegEffect (crcRegEffect s.crcReg j) i = crcRegEffect (crcRegEffect s.crcReg i) j := by
    by_cases hiu : unitOf i = .crcSerial
    · rw [hregj hiu, hregj hiu]
    · rw [crcRegEffect_of_ne hiu, crcRegEffect_of_ne hiu]
  have hfrm : ∀ f : Framer,
      (if unitOf i = .streamFramer then gi else if unitOf j = .streamFramer then gj else f) =
        if unitOf j = .streamFramer then gj else if unitOf i = .streamFramer then gi else f := by
    intro f
    by_cases hiu : unitOf i = .streamFramer
    · rw [if_pos hiu, if_neg (hother _ (by decide) hiu), if_pos hiu]
    · rw [if_neg hiu, if_neg hiu]
  simp only [State.advance, hreg, hfrm]

/-- An instruction advances `CRCREG` by what it does to it. -/
theorem exec_crcReg {i : Instr} {s t : State} (h : exec i s = .next t) :
    t.crcReg = crcRegEffect s.crcReg i := by
  obtain ⟨g, rs, -, rfl⟩ := exec_next_eq_advance h
  rfl

theorem execAll_cons_next {i : Instr} {is : List Instr} {s t : State}
    (h : execAll (i :: is) s = .next t) : ∃ u, exec i s = .next u ∧ execAll is u = .next t := by
  unfold execAll at h
  split at h
  · rename_i u hu
    exact ⟨u, hu, h⟩
  · cases h
  · cases h

/-- Settles O8: instruction by instruction. -/
theorem crcRegisterFollowsSerialOperationsOnly :
    Obligations.CrcRegisterFollowsSerialOperationsOnly := by
  intro is s t h
  induction is generalizing s with
  | nil => cases h; rfl
  | cons i is ih =>
    obtain ⟨u, hu, hrest⟩ := execAll_cons_next h
    rw [ih u hrest, exec_crcReg hu, List.foldl_cons]

/-! ## `DIAG` (rule R131) -/

theorem pushByte_congr {c c' : Config} (h : c'.maxLen = c.maxLen) (b : Byte) (f : Framer) :
    pushByte c' b f = pushByte c b f := by
  simp only [pushByte, Config.bufCap, h]

theorem feedBytes_congr {c c' : Config} (h : c'.maxLen = c.maxLen) (bs : Bytes) (f : Framer) :
    feedBytes c' bs f = feedBytes c bs f := by
  induction bs generalizing f with
  | nil => rfl
  | cons b rest ih => simp only [feedBytes, pushByte_congr h, ih]

/-- An instruction that delivers no bytes does not read `DIAG`. -/
theorem exec_with_config {i : Instr} {s t : State} {c : Config} (hrx : rxChunk i = none)
    (hc : c.maxLen = s.config.maxLen) (h : exec i s = .next t) :
    exec i { s with config := c } = .next { t with config := c } := by
  cases i with
  | encReq dest src cmd payload =>
    rw [exec_encReq] at h
    split at h
    · cases h
    · rename_i hfits
      cases h
      rw [exec_encReq, hc, if_neg hfits]
      rfl
  | crcClr | crcUpd | crcRd | crcCompute | crcVerify | decFrame | frmRst => cases h; rfl
  | _ => cases hrx

/-- Settles O53: the framer reads `MAX_LEN` alone, and `DIAG` decides only whether the kinds are
returned. -/
theorem diagnosticsChangeNothingElse : Obligations.DiagnosticsChangeNothingElse := by
  intro i s t c hc h
  cases hrx : rxChunk i with
  | none => exact ⟨_, exec_with_config hrx hc h, rfl, rfl, rfl⟩
  | some bs =>
    rw [exec_of_rxChunk hrx, exec_frmFeed] at h
    obtain ⟨g, trace, hfeed, rfl⟩ := framerOutcome_next h
    have hfeed' : feedBytes c bs s.frm = .ok (g, trace) := (feedBytes_congr hc bs s.frm).trans hfeed
    have hexec := exec_frmFeed_of_feedBytes (s := { s with config := c }) hfeed'
    refine ⟨_, (exec_of_rxChunk hrx _).trans hexec, rfl, rfl, ?_⟩
    simp [framerResult, Result.withoutDiags]

/-! ## Completion (rules R115, R124) -/

/-- Settles O49: deliveries are answered, and of the other instructions ENC.REQ alone looks at an
operand's size. -/
theorem everyInstructionCompletesOrIsTooLong : Obligations.EveryInstructionCompletesOrIsTooLong := by
  intro i s hq
  cases hrx : rxChunk i with
  | some bs =>
    obtain ⟨g, trace, -, -, hexec⟩ := exec_frmFeed_of_quiescent bs hq
    exact .inl ⟨_, (exec_of_rxChunk hrx s).trans hexec⟩
  | none => cases i with
    | encReq dest src cmd payload =>
      rw [exec_encReq]
      by_cases hlong : s.config.maxLen < 11 + payload.length
      · exact .inr ⟨dest, src, cmd, payload, rfl, hlong, if_pos hlong⟩
      · exact .inl ⟨_, if_neg hlong⟩
    | crcClr | crcUpd | crcRd | crcCompute | crcVerify | decFrame | frmRst => exact .inl ⟨_, rfl⟩
    | _ => cases hrx

end Sys2Proof.Machine
end

section
/-! PROOFS. What every step keeps (10_state.md rule R15; 41_codec.md rule R78; 42_framer.md rule R106):
the frames emitted are pieces of the stream, all valid, and the invariant of the block holds along
every run (60_exceptions.md rule R124). -/

namespace Sys2Proof.Machine

/-! ## Pieces of a stream (rules R36, R106) -/

/-- A frame record the framer may emit: valid, and of accepted length. -/
def Accepted (m : Nat) (f : Frame) : Prop := f.Valid ∧ 11 ≤ f.length.toNat ∧ f.length.toNat ≤ m

/-- Taken from the front, byte by byte or frame by frame, a stream yields the frames and leaves a rest. -/
inductive Cut (m : Nat) : Bytes → List Frame → Bytes → Prop
  | rest (s : Bytes) : Cut m s [] s
  | drop {s r : Bytes} {fs : List Frame} (b : Byte) (more : Cut m s fs r) : Cut m (b :: s) fs r
  | frame {s r : Bytes} {fs : List Frame} {f : Frame} (hf : Accepted m f) (more : Cut m s fs r) :
      Cut m (f.wire ++ s) (f :: fs) r

section
variable {m : Nat} {s t r r' : Bytes} {fs fs' : List Frame}

theorem Cut.accepted (h : Cut m s fs r) : ∀ f ∈ fs, Accepted m f := by
  induction h with
  | rest => simp
  | drop _ _ ih => exact ih
  | frame hf _ ih => simpa using ⟨hf, ih⟩

theorem Cut.append (h : Cut m s fs r) (t : Bytes) : Cut m (s ++ t) fs (r ++ t) := by
  induction h with
  | rest s => exact .rest (s ++ t)
  | drop b _ ih => exact .drop b ih
  | frame hf _ ih => rw [List.append_assoc]; exact .frame hf ih

theorem Cut.trans (h : Cut m s fs r) (h' : Cut m r fs' r') : Cut m s (fs ++ fs') r' := by
  induction h with
  | rest => exact h'
  | drop b _ ih => exact .drop b (ih h')
  | frame hf _ ih => exact .frame hf (ih h')

theorem cut_drop (m : Nat) (s : Bytes) (n : Nat) : Cut m s [] (s.drop n) := by
  induction n generalizing s with
  | zero => exact .rest s
  | succ n ih => cases s with
    | nil => exact .rest []
    | cons b s => exact .drop b (ih s)

/-- The pieces as gaps and frames in turn. -/
theorem Cut.exists_layOut (h : Cut m s fs r) :
    ∃ parts dropped, s = layOut parts ++ (dropped ++ r) ∧ parts.map Prod.snd = fs := by
  induction h with
  | rest s => exact ⟨[], [], rfl, rfl⟩
  | drop b _ ih =>
    obtain ⟨parts, dropped, rfl, rfl⟩ := ih
    cases parts with
    | nil => exact ⟨[], b :: dropped, rfl, rfl⟩
    | cons p parts => exact ⟨(b :: p.1, p.2) :: parts, dropped, rfl, rfl⟩
  | @frame _ _ _ f hf _ ih =>
    obtain ⟨parts, dropped, rfl, rfl⟩ := ih
    exact ⟨([], f) :: parts, dropped, by simp [layOut], rfl⟩

end

/-- A candidate inside the buffer bound that decodes is an accepted frame at the front of the
buffer. -/
theorem cut_of_emit {m : Nat} {f : Framer} {fr : Frame} (hf : MidPush m f)
    (hlen : f.flen.toNat ≤ f.buf.length) (hd : decodeFrame (f.buf.take f.flen.toNat) = .ok fr) :
    Cut m f.buf [fr] (f.buf.drop f.flen.toNat) := by
  obtain ⟨hvalid, hwire⟩ := decodeFrame_ok_iff_wire.mp hd
  have hsize : fr.length.toNat = f.flen.toNat := by
    rw [← hvalid.wire_length_eq, ← hwire, List.length_take_of_le hlen]
  have haccepted : Accepted m fr :=
    ⟨hvalid, hvalid.le_length, hsize ▸ Nat.le_trans hlen hf.1⟩
  have hcut := Cut.frame haccepted (.rest (f.buf.drop f.flen.toNat))
  rwa [← hwire, List.take_append_drop] at hcut

/-- Inside a push every step cuts the frame it emits, if any, from the front of the buffer. -/
theorem cut_of_internalStep {m : Nat} {f g : Framer} {r : StepResult} (hf : MidPush m f)
    (h : internalStep m f = .ok (g, r)) : Cut m f.buf (framesOf [r]) g.buf := by
  rcases internalStep_cases h with
    ⟨-, _, -, rfl, rfl⟩ | ⟨-, -, rfl, rfl⟩ | ⟨-, -, rfl, rfl⟩ | ⟨-, -, -, rfl, rfl⟩ |
    ⟨-, -, -, rfl, rfl⟩ | ⟨-, -, rfl, rfl⟩ | ⟨-, -, rfl, rfl⟩ | ⟨hp, hlen, fr, hd, rfl, rfl⟩ |
    ⟨-, -, -, _, -, rfl, rfl⟩
  · exact cut_drop m _ _
  · simpa [framesOf] using cut_drop m f.buf f.buf.length
  · exact .rest _
  · exact cut_drop m _ _
  · exact .rest _
  · exact .rest _
  · exact .rest _
  · exact cut_of_emit hf hlen hd
  · exact cut_drop m _ _

theorem cut_of_runsUntilWait {m : Nat} {f g : Framer} {trace : List StepResult} (hf : MidPush m f)
    (h : RunsUntilWait m f trace g) : Cut m f.buf (framesOf trace) g.buf := by
  induction h with
  | waits hstep => exact cut_of_internalStep hf hstep
  | @goesOn _ _ _ r rest hstep _ _ ih =>
    have hcut := (cut_of_internalStep hf hstep).trans (ih (midPush_step hf hstep).1)
    rwa [← framesOf_append] at hcut

/-- What is buffered and fed is cut into the frames emitted and the bytes still buffered. -/
theorem cut_of_feedBytes {c : Config} {bs : Bytes} {f g : Framer} {trace : List StepResult}
    (hq : Quiescent c.maxLen f) (h : feedBytes c bs f = .ok (g, trace)) :
    Cut c.maxLen (f.buf ++ bs) (framesOf trace) g.buf := by
  induction bs generalizing f trace with
  | nil =>
    cases h
    rw [List.append_nil]
    exact .rest _
  | cons b rest ih =>
    obtain ⟨k, first, hpush, hruns, hk⟩ := pushByte_quiescent b hq
    simp only [feedBytes, hpush] at h
    obtain ⟨more, hmore, rfl⟩ := before_ok_iff.mp h
    have hcut := ((cut_of_runsUntilWait (midPush_append hq) hruns).append rest).trans (ih hk hmore)
    rwa [← framesOf_append, List.append_assoc] at hcut

/-- Settles O41: the pieces a chunk is cut into. -/
theorem emittedFramesAreDisjointPiecesOfTheStream :
    Obligations.EmittedFramesAreDisjointPiecesOfTheStream := by
  intro bs s hq
  obtain ⟨g, trace, hfeed, -, hexec⟩ := exec_frmFeed_of_quiescent bs hq
  have hcut := cut_of_feedBytes hq hfeed
  obtain ⟨parts, dropped, hsplit, hparts⟩ := hcut.exists_layOut
  rw [framerResult, ← hparts] at hexec
  refine ⟨g, parts, dropped, _, hexec, hsplit, fun p hp => hcut.accepted p.2 ?_⟩
  rw [← hparts]
  exact List.mem_map_of_mem hp

/-! ## The invariant -/

theorem resultValid_framerResult {c : Config} {bs : Bytes} {f g : Framer} {trace : List StepResult}
    (hq : Quiescent c.maxLen f) (h : feedBytes c bs f = .ok (g, trace)) :
    ResultValid c.maxLen (framerResult c trace) :=
  (cut_of_feedBytes hq h).accepted

theorem resultValid_decodeResult (m : Nat) (r : Bytes) : ResultValid m (decodeResult r) := by
  unfold decodeResult
  cases hd : decodeFrame r with
  | ok f => exact (decodeFrame_ok_iff_wire.mp hd).1
  | error e => exact trivial

theorem resultValid_encodeFrame {m : Nat} {payload : Bytes} (dest src : U16) (cmd : Byte)
    (hm : m ≤ 65535) (h : 11 + payload.length ≤ m) :
    ResultValid m (.bytes (encodeFrame dest src cmd payload)) :=
  ⟨(builtFrame_valid (Nat.le_trans h hm)).validFrame_wire, by rw [encodeFrame_length]; exact h⟩

theorem State.Inv.returning {s : State} {r : Result} (h : s.Inv)
    (hr : ResultValid s.config.maxLen r) : (s.returning r).Inv := by
  obtain ⟨hq, hresults⟩ := h
  refine ⟨hq, fun x hx => ?_⟩
  rcases List.mem_append.mp hx with hold | hnew
  · exact hresults x hold
  · rw [List.mem_singleton.mp hnew]
    exact hr

theorem State.Inv.setFrm {s : State} {f : Framer} (h : s.Inv) (hf : Quiescent s.config.maxLen f) :
    (s.setFrm f).Inv :=
  ⟨hf, h.2⟩

/-- Every instruction keeps the invariant. -/
theorem exec_keeps_inv {i : Instr} {s t : State} (hs : s.Inv) (h : exec i s = .next t) : t.Inv := by
  cases hrx : rxChunk i with
  | some bs =>
    obtain ⟨g, trace, hfeed, hg, hexec⟩ := exec_frmFeed_of_quiescent bs hs.1
    rw [exec_of_rxChunk hrx, hexec, Host.Outcome.next.injEq] at h
    rw [← h]
    exact (hs.setFrm hg).returning (resultValid_framerResult hs.1 hfeed)
  | none => cases i with
    | encReq dest src cmd payload =>
      rw [exec_encReq] at h
      split at h
      · cases h
      · rename_i hfits
        cases h
        exact hs.returning
          (resultValid_encodeFrame dest src cmd s.config.le_u16 (Nat.le_of_not_lt hfits))
    | decFrame r => cases h; exact hs.returning (resultValid_decodeResult _ r)
    | crcRd | crcCompute | crcVerify => cases h; exact hs.returning trivial
    | crcClr | crcUpd => cases h; exact hs
    | frmRst => cases h; exact hs.setFrm (quiescent_reset _)
    | _ => cases hrx

/-- Settles O47: by what is fetched; an instruction runs on the same state with less input. -/
theorem everyStepKeepsTheInvariant : Obligations.EveryStepKeepsTheInvariant := by
  intro s t hs h
  rcases step_next_cases h with rfl | ⟨rest, rfl⟩ | ⟨rest, rfl⟩ | ⟨i, rest, -, hexec⟩
  · exact hs
  · exact hs
  · exact ⟨quiescent_reset _, hs.2⟩
  · exact exec_keeps_inv (s := s.setInput rest) hs hexec

/-- Settles O46: the reset framer is quiescent, and nothing has been returned. -/
theorem resetStateMeetsTheInvariant : Obligations.ResetStateMeetsTheInvariant := by
  have hreset : ∀ c : Config, (State.resetWith c).Inv := fun c =>
    ⟨quiescent_reset _, fun r hr => absurd hr List.not_mem_nil⟩
  exact ⟨hreset _, hreset⟩

/-- A step from a good state is answered or refused. -/
theorem step_ne_fault {s : State} (hs : s.Inv) (e : Fault) : step s ≠ .fault e := by
  unfold step
  cases fetch s with
  | run i rest =>
    rcases everyInstructionCompletesOrIsTooLong i (s.setInput rest) hs.1 with
      ⟨t, ht⟩ | ⟨_, _, _, _, -, -, hrefused⟩
    · simp [ht]
    · simp [hrefused]
  | idle | skip | reset | refuse => simp

/-- Settles O48: induction on the number of steps, each of which keeps the invariant. -/
theorem runsFromGoodStatesNeverFault : Obligations.RunsFromGoodStatesNeverFault := by
  intro s hs n
  induction n generalizing s with
  | zero => intro e h; cases h
  | succ n ih =>
    intro e h
    simp only [Host.Core.run] at h
    split at h
    · rename_i t hstep
      exact ih t (everyStepKeepsTheInvariant s t hs hstep) e h
    · rename_i r hstep
      exact step_ne_fault hs r hstep
    · cases h

end Sys2Proof.Machine
end
